-- ==== Sys2Proof/Word.lean ====
section
/-! DEFINITION. The bit-vector types of the unit (spec/00_scope.md section 6, R5). -/

namespace Sys2Proof

/-- An Int128 pattern, 128 bits, bit 0 least significant (R10). `U(x)` is `x.toNat`, `S(x)` is `x.toInt`. -/
abbrev Value := BitVec 128

/-- A 64-bit half of a value: the adder's limb (R5). -/
abbrev Half := BitVec 64

/-- A 32-bit limb: the multiplier's limb and the operand of CLZ32 (R5). -/
abbrev Limb := BitVec 32

/-- An `op` field, and a byte of a serial transfer (R5, R31). -/
abbrev Byte := BitVec 8

/-- A command word `CMD` (R40). -/
abbrev CommandWord := BitVec 264

/-- A response word `RESP` (R41). -/
abbrev ResponseWord := BitVec 256

end Sys2Proof
end

