-- ==== Sys2Proof/Machine/Operands.lean ====
section
/-! DEFINITION. Halves and limbs of a value, the fields of the command word and of the response word, how each operand
form is read, and the serial byte order (spec/00_scope.md section 6, 10_state.md R10 R12, 20_memory.md R31,
30_encoding.md R40 R41 R42). -/

namespace Sys2Proof.Machine

/-- `x.high = x[127:64]` (R10). -/
def high (x : Value) : Half := x.extractLsb' 64 64

/-- `x.low = x[63:0]` (R10). -/
def low (x : Value) : Half := x.extractLsb' 0 64

/-- `mk(h, l) = h ‖ l`, the source's composition (R12). -/
def mk (h l : Half) : Value := h ++ l

/-- `decompose(x) = (x.high, x.low)` (R12). -/
def decompose (x : Value) : Half × Half := (high x, low x)

/-- The 32-bit limb `w_i = x[32i+31:32i]` (R31). -/
def limb (x : Value) (i : Nat) : Limb := x.extractLsb' (32 * i) 32

/-- Bits 63:32 of a half. -/
def upperLimb (p : Half) : Limb := p.extractLsb' 32 32

/-- Bits 31:0 of a half. -/
def lowerLimb (p : Half) : Limb := p.extractLsb' 0 32

/-- `op = CMD[263:256]` (R40). -/
def opOf (w : CommandWord) : Byte := w.extractLsb' 256 8

/-- `a = CMD[255:128]` (R40). -/
def aOf (w : CommandWord) : Value := w.extractLsb' 128 128

/-- `b = CMD[127:0]` (R40). -/
def bOf (w : CommandWord) : Value := w.extractLsb' 0 128

/-- `CMD = op ‖ a ‖ b` (R40). -/
def commandWord (op : Byte) (a b : Value) : CommandWord := op ++ (a ++ b)

/-- Form W: `x = a[31:0]` (R42). -/
def wordOperand (a : Value) : Limb := a.extractLsb' 0 32

/-- Form VK: the amount is `k = S(b)`, all 128 bits of operand B read as signed (R42). -/
def amountOperand (b : Value) : Int := b.toInt

/-- The amounts the shift rules are defined for, 0 to 127 (R68); `none` is the undefined case. -/
def legalAmount (k : Int) : Option (Fin 128) :=
  if h : 0 ≤ k ∧ k ≤ 127 then some ⟨k.toNat, by omega⟩ else none

/-- Byte k of a serial transfer is bits `[8k+7:8k]` of the word (R31). -/
def byteOf {m : Nat} (w : BitVec m) (k : Nat) : Byte := w.extractLsb' (8 * k) 8

/-- The first `n` bytes of a word in the order a byte-wide channel carries them (R31). -/
def serialBytes {m : Nat} (w : BitVec m) (n : Nat) : List Byte := (List.range n).map (byteOf w)

/-- The number whose bytes arrive in this order, least significant byte first (R31). -/
def natOfBytes : List Byte → Nat
  | [] => 0
  | c :: cs => c.toNat + 256 * natOfBytes cs

/-- Int128Min, Int128Max and zero (R13). They are operands a host supplies; the unit stores none of them. -/
def int128Min : Value := mk 0x8000000000000000#64 0#64
/-- See `int128Min`. -/
def int128Max : Value := mk 0x7FFFFFFFFFFFFFFF#64 0xFFFFFFFFFFFFFFFF#64
/-- See `int128Min`. -/
def int128Zero : Value := mk 0#64 0#64

end Sys2Proof.Machine
end

