-- ==== Sys2Proof/Machine/Flags.lean ====
section
/-! DEFINITION. The unit has no flags (spec/10_state.md R18). What comes nearest lives here: the carry and the borrow
between the two limbs of the adder, and the comparators (spec/00_scope.md section 6). None of it leaves the datapath. -/

namespace Sys2Proof.Machine

/-- `add64(p, q, cin)`: the sum and the carry out. -/
def add64 (p q : Half) (cin : Bool) : Half × Bool :=
  (BitVec.ofNat 64 (p.toNat + q.toNat + cin.toNat), decide (2 ^ 64 ≤ p.toNat + q.toNat + cin.toNat))

/-- `sub64(p, q, bin)`: the difference and the borrow out. -/
def sub64 (p q : Half) (bin : Bool) : Half × Bool :=
  (BitVec.ofInt 64 ((p.toNat : Int) - q.toNat - bin.toNat), decide (p.toNat < q.toNat + bin.toNat))

/-- `ltu(x, y)`: `U(x) < U(y)`. -/
def ltu (x y : Value) : Bool := decide (x.toNat < y.toNat)

/-- `geu(x, y) = not ltu(x, y)`. -/
def geu (x y : Value) : Bool := !ltu x y

/-- `gtu(x, y) = ltu(y, x)`. -/
def gtu (x y : Value) : Bool := ltu y x

/-- `eq(x, y)`: the patterns are equal bit for bit. -/
def eq128 (x y : Value) : Bool := decide (x = y)

/-- `lts(x, y)`: `S(x) < S(y)`, the order of the value type (R15). No command uses it. -/
def lts (x y : Value) : Bool := decide (x.toInt < y.toInt)

end Sys2Proof.Machine
end

