-- ==== Sys2Proof/Config.lean ====
section
/-! DEFINITION. The free values: what the spec leaves unspecified (spec/93_implementation_defined.md U9). No body, so
nothing is provable of them but that they exist. Each is applied to the number of the instant (log 6). -/

namespace Sys2Proof

/-- What the pins `resp[255:0]` carry at an instant with no response on them (R22, R91, U9). -/
opaque Config.idleResponse (instant : Nat) : ResponseWord

/-- What the divider's register `rem` holds at an instant with no division in progress (R20, U9). -/
opaque Config.idleRem (instant : Nat) : Value

/-- What the divider's register `dd` holds at an instant with no division in progress, and at the DONE of one whose loop
did not run (R20, R76, U9). -/
opaque Config.idleDd (instant : Nat) : Value

/-- What the divider's register `q` holds at an instant with no division in progress (R20, U9). -/
opaque Config.idleQ (instant : Nat) : Value

/-- What the divider's loop index `i` holds at an instant with no division in progress, and at the DONE of one whose loop
did not run (R20, R76, U9). -/
opaque Config.idleIndex (instant : Nat) : Fin 128

end Sys2Proof
end

