-- ==== Sys2Proof/Machine/State.lean ====
section
/-! DEFINITION. The state of the unit and of the host that drives it, as plain data, and the state after reset
(spec/10_state.md R19 to R22, 70_reset_and_hazards.md R91 R94, 45_divide.md R76). -/

namespace Sys2Proof.Machine

/-- The register STATUS by its fields (R19). Bits 7:4 are hard-wired zero and have no storage; `State.statusWord`
lays the fields out as the 16-bit word. -/
structure Status where
  /-- bit 0 -/
  halted : Bool
  /-- bits 3:1 -/
  cause  : BitVec 3
  /-- bits 15:8 -/
  fop    : Byte
  deriving DecidableEq, Repr

/-- A response: the primary result `y` and the secondary result `z` (R41). -/
structure Response where
  y : Value
  z : Value
  deriving DecidableEq, Repr

/-- The divider's working values (R20): remaining dividend, current shifted divisor, accumulated quotient and the
7-bit loop index. -/
structure DivWork where
  rem : Value
  dd  : Value
  q   : Value
  i   : Fin 128
  deriving DecidableEq, Repr

/-- What the division loop leaves in `dd` and `i` when it ends (R76). The response does not use them; they exist to it
(R20). -/
structure DivRest where
  dd : Value
  i  : Fin 128
  deriving DecidableEq, Repr

/-- How far the command in flight has come (R76, R94). Only a DIVMOD performed one iteration a step is ever
`iterating` or `divided`. -/
inductive Stage where
  /-- the division engine is about to perform the ITER with this index (R76) -/
  | iterating (w : DivWork)
  /-- the engine has reached DONE with this quotient and remainder, after a loop that left `rest`; `none` when START went
  to DONE and set neither `dd` nor `i` (R76) -/
  | divided (q rem : Value) (rest : Option DivRest)
  /-- the response is on the response port and is held there until taken (R94) -/
  | answered (r : Response)
  deriving DecidableEq, Repr

/-- The in-flight record (R21): the accepted command word and what has become of it. -/
structure InFlight where
  cmd   : CommandWord
  stage : Stage
  deriving DecidableEq, Repr

/-- What the host drives on its pins at one instant (R94). -/
structure HostPins where
  rst       : Bool
  cmdValid  : Bool
  cmd       : CommandWord
  respReady : Bool
  deriving DecidableEq, Repr

/-- How much of a DIVMOD one step performs (R76: "each be one step of the unit, or all of them together"). -/
inductive Granularity where
  | wholeCommand
  | perIteration
  deriving DecidableEq, Repr

/-- The causes of a fatal (R81). -/
inductive Cause where
  | divZero
  | scanZero
  | illegalCmd
  deriving DecidableEq, Repr

/-- Why the machine stops. -/
inductive Fault where
  /-- Raised by `step` alone: the unit is halted with this cause and FOP, and the host has nothing more to drive, so no
  reset can come and nothing can ever be accepted (R84, R96: "The run ends in a fault"). Safe: the hardware stays
  halted for ever too (log 4). -/
  | halted (cause : BitVec 3) (fop : Byte)
  deriving DecidableEq, Repr

/-- Why an instruction has no meaning. -/
inductive Refusal where
  /-- Raised by an arm of `exec` with no meaning yet; none is left. Safe. -/
  | notModelled (mnemonic : String)
  /-- Raised by SLL, SRL and SRA for an amount outside 0 to 127, which the source leaves undefined (R68, U1: "it refuses
  it"). Safe (log 2). -/
  | shiftAmountUndefined (k : Int)
  deriving DecidableEq, Repr

/-- The state of the unit and of its host. -/
structure State where
  /-- STATUS (R19). -/
  status      : Status
  /-- The command in flight, if there is one (R21); `none` is "no command in flight, no response pending" (R91). -/
  inFlight    : Option InFlight
  /-- The host's pins at this instant (the head) and at each later one; past the end the host drives nothing
  (R94, R97, log 3). -/
  schedule    : List HostPins
  /-- The responses the host has taken, oldest first (R96, log 8). -/
  taken       : List Response
  /-- The model's own: which of the two granularities of R76 is in use (log 5). -/
  granularity : Granularity
  /-- The model's own: the number of this instant, which the free values of Config are applied to (log 6). -/
  instant     : Nat
  deriving DecidableEq, Repr

/-- STATUS as reset leaves it (R22). -/
def Status.clear : Status := ⟨false, 0#3, 0x00#8⟩

/-- The machine after reset (R22, R91), with a host that drives nothing yet. -/
def State.reset : State where
  status := Status.clear
  inFlight := none
  schedule := []
  taken := []
  granularity := .wholeCommand
  instant := 0

end Sys2Proof.Machine
end

