-- ==== Sys2Proof/Machine/Ops.lean ====
section
/-! DEFINITION. The named operations over the state: the output pins as views of it, the end of an instant, answering a
command, the entry of a fatal, serving the response port, reset, and the host presenting a command word
(spec/10_state.md R19 to R22, 60_exceptions.md R83 R86, 70_reset_and_hazards.md R90 R94). -/

namespace Sys2Proof.Machine

/-! The host's pins. -/

/-- A host that drives nothing: no reset, no command, no response taken. The command pins are not read then. -/
def HostPins.idle : HostPins := ⟨false, false, 0#264, false⟩

/-- A host that presents this command word (R94). -/
def HostPins.present (w : CommandWord) : HostPins := ⟨false, true, w, false⟩

/-- A host that is ready to take a response (R94). -/
def HostPins.take : HostPins := ⟨false, false, 0#264, true⟩

/-- A host that asserts `rst` (R90). -/
def HostPins.reset : HostPins := ⟨true, false, 0#264, false⟩

/-- What the host drives at this instant; past the end of its schedule it drives nothing (log 3). -/
def State.pins (s : State) : HostPins := s.schedule.headD HostPins.idle

/-! The output pins and registers, as views of the state. -/

/-- The code of a cause (R81). -/
def Cause.code : Cause → BitVec 3
  | .divZero => 1#3
  | .scanZero => 2#3
  | .illegalCmd => 3#3

/-- STATUS as its 16-bit word: FOP in 15:8, zeros in 7:4, CAUSE in 3:1, HALTED in 0 (R19). -/
def State.statusWord (s : State) : BitVec 16 :=
  s.status.fop ++ (0#4 ++ (s.status.cause ++ BitVec.ofBool s.status.halted))

/-- The `fatal` pin: a level equal to STATUS.HALTED at all times (R86). -/
def State.fatalPin (s : State) : Bool := s.status.halted

/-- `busy`: a command is in flight (R21). -/
def State.busy (s : State) : Bool := s.inFlight.isSome

/-- `cmd_ready`: 1 exactly when `rst` is released, HALTED is 0 and busy is 0 (R94). -/
def State.cmdReady (s : State) : Bool := !s.pins.rst && !s.status.halted && !s.busy

/-- The response on the response port, if there is one (R94). While `rst` is asserted the unit produces none, whatever is
in flight (R90). -/
def State.response (s : State) : Option Response :=
  if s.pins.rst then none
  else
    match s.inFlight with
    | some ⟨_, .answered r⟩ => some r
    | _ => none

/-- `resp_valid` (R94): there is a response on the port, so `rst` is released (R90). -/
def State.respValid (s : State) : Bool := s.response.isSome

/-- `RESP = y ‖ z` (R41). -/
def Response.word (r : Response) : ResponseWord := r.y ++ r.z

/-- A response as a byte-wide channel carries it: 32 bytes, little-endian (R31). -/
def Response.bytes (r : Response) : List Byte := serialBytes r.word 32

/-- The pins `resp[255:0]`; with no response on them their content is unspecified, a free value (U9, log 6). -/
def State.respPins (s : State) : ResponseWord :=
  match s.response with
  | some r => r.word
  | none => Config.idleResponse s.instant

/-- The divider's registers `rem`, `dd`, `q` and `i` (R20). While a division is stepped they hold its working values, at
DONE those its last ITER left; when START went to DONE at once, `dd` and `i` are unspecified; at any other time all four
are. What is unspecified is a free value (U9, log 6). -/
def State.divider (s : State) : DivWork :=
  match s.inFlight with
  | some ⟨_, .iterating w⟩ => w
  | some ⟨_, .divided q r (some l)⟩ => ⟨r, l.dd, q, l.i⟩
  | some ⟨_, .divided q r none⟩ => ⟨r, Config.idleDd s.instant, q, Config.idleIndex s.instant⟩
  | _ => ⟨Config.idleRem s.instant, Config.idleDd s.instant, Config.idleQ s.instant, Config.idleIndex s.instant⟩

/-! What a step does. -/

/-- The end of an instant: the host goes on to what it drives next. -/
def State.tick (s : State) : State :=
  { s with schedule := s.schedule.tail, instant := s.instant + 1 }

/-- `respond(y, z)` (spec/00_scope.md section 6): the command on the command port has been accepted and answered. Its
word stays in flight and its response is on the response port until taken (R21, R94). -/
def State.respond (s : State) (y z : Value) : State :=
  { s with inFlight := some ⟨s.pins.cmd, .answered ⟨y, z⟩⟩ }

/-- The DIVMOD on the command port has been accepted and the engine has reached this stage (R76, R21). -/
def State.enterDivision (s : State) (g : Stage) : State :=
  { s with inFlight := some ⟨s.pins.cmd, g⟩ }

/-- `raise Fatal(cause)` by a command with this `op`, one indivisible action: HALTED, CAUSE and FOP are written
together, busy falls, there is no response (R83). The `fatal` pin follows HALTED (R86). -/
def State.raiseFatal (s : State) (c : Cause) (op : Byte) : State :=
  { s with status := ⟨true, c.code, op⟩, inFlight := none }

/-- Reset, by the pin: the reset state of R91, a command in flight discarded with no response and no fatal (R90). The
host's side is not the unit's to reset. -/
def State.applyReset (s : State) : State :=
  { s with status := Status.clear, inFlight := none }

/-- The response on the port is taken, and busy returns to 0 (R94). -/
def State.takeResponse (s : State) (r : Response) : State :=
  { s with inFlight := none, taken := s.taken ++ [r] }

/-- The outcome of a step whose instant ends. -/
def endInstant : Host.Outcome State Fault Refusal → Host.Outcome State Fault Refusal
  | .next s => .next s.tick
  | .fault f => .fault f
  | .refused r => .refused r

/-- The state in which the very next step accepts the command word `w`: the host presents it at this instant with `rst`
released, and the unit is ready for it: not busy and not halted (R94). Of a unit that is ready already only the host's
pins of this instant change (log 11). -/
def State.presents (s : State) (w : CommandWord) : State :=
  { s with
    status := if s.status.halted then Status.clear else s.status
    inFlight := none
    schedule := HostPins.present w :: s.schedule.tail }

end Sys2Proof.Machine
end

