-- ==== Sys2Proof/Machine/AddSub.lean ====
section
/-! DEFINITION. The two-limb adder and subtractor, ADD and SUB (spec/42_add_subtract.md). -/

namespace Sys2Proof.Machine

/-- The adder: the low halves, then the high halves with the carry; the carry out of bit 127 is dropped (R55, R57). -/
def add128 (a b : Value) : Value :=
  let l := add64 (low a) (low b) false
  let h := add64 (high a) (high b) l.2
  mk h.1 l.1

/-- The subtractor: the low halves, then the high halves with the borrow; the borrow out of bit 127 is dropped
(R56, R57). -/
def sub128 (a b : Value) : Value :=
  let l := sub64 (low a) (low b) false
  let h := sub64 (high a) (high b) l.2
  mk h.1 l.1

/-- ADD (R55). Total. -/
def execAdd (a b : Value) (s : State) : Host.Outcome State Fault Refusal :=
  .next (s.respond (add128 a b) 0#128)

/-- SUB (R56). Total. -/
def execSub (a b : Value) (s : State) : Host.Outcome State Fault Refusal :=
  .next (s.respond (sub128 a b) 0#128)

end Sys2Proof.Machine
end

