-- ==== Sys2Proof/Syntax.lean ====
section
/-! DEFINITION. The commands of the unit: one constructor for each row of spec/opcode_table.json, carrying the operands
its form reads (spec/30_encoding.md R42, R43). Fields a form ignores are no part of a command (R45, log 16). -/

namespace Sys2Proof

/-- A decoded command. The amount of a shift is the integer `k = S(b)` (R42): every amount the source speaks of,
128 and above or negative included, is a term. -/
inductive Instr where
  | clz32  (x : Limb)
  | msb128 (a : Value)
  | add    (a b : Value)
  | sub    (a b : Value)
  | mul    (a b : Value)
  | sll    (a : Value) (k : Int)
  | srl    (a : Value) (k : Int)
  | sra    (a : Value) (k : Int)
  | divmod (a b : Value)
  deriving DecidableEq, Repr

/-- The four operand forms (R42). -/
inductive Form where
  | vv
  | vk
  | v
  | w
  deriving DecidableEq, Repr

/-- The nine assigned mnemonics (R43). -/
inductive Mnemonic where
  | clz32
  | msb128
  | add
  | sub
  | mul
  | sll
  | srl
  | sra
  | divmod
  deriving DecidableEq, Repr

end Sys2Proof
end

