-- ==== Sys2Proof/WellFormed.lean ====
section
/-! DEFINITION. Which terms of `Instr` a command word can carry (spec/30_encoding.md R40, R42). -/

namespace Sys2Proof

/-- An integer that operand B carries as a signed 128-bit value: `k = S(b)` for some `b` (R42). -/
def amountFits (k : Int) : Bool :=
  decide (-(2 ^ 127) ≤ k) && decide (k < 2 ^ 127)

/-- Every operand is carried by its field. Operands of the other forms are bit vectors of the field's own width, so
only a shift amount can fail. An amount outside 0 to 127 is well-formed: it is encodable, and its command is the
undefined one of R68. -/
def Instr.wellFormed : Instr → Bool
  | .clz32 _ => true
  | .msb128 _ => true
  | .add _ _ => true
  | .sub _ _ => true
  | .mul _ _ => true
  | .sll _ k => amountFits k
  | .srl _ k => amountFits k
  | .sra _ k => amountFits k
  | .divmod _ _ => true

end Sys2Proof
end

