-- ==== Sys2Proof/Decode.lean ====
section
/-! DEFINITION. The opcode map, the decoder (total, in the three steps of spec/30_encoding.md R46) and the encoder. -/

namespace Sys2Proof

open Sys2Proof.Machine

/-- The opcode map (R43). -/
def Mnemonic.opcode : Mnemonic → Byte
  | .clz32 => 0x01#8
  | .msb128 => 0x02#8
  | .add => 0x03#8
  | .sub => 0x04#8
  | .mul => 0x05#8
  | .sll => 0x06#8
  | .srl => 0x07#8
  | .sra => 0x08#8
  | .divmod => 0x09#8

/-- The operand form of each command (R42, R43). -/
def Mnemonic.form : Mnemonic → Form
  | .clz32 => .w
  | .msb128 => .v
  | .add => .vv
  | .sub => .vv
  | .mul => .vv
  | .sll => .vk
  | .srl => .vk
  | .sra => .vk
  | .divmod => .vv

/-- The opcode map read the other way; `none` is a reserved `op` (R43, R44). -/
def Mnemonic.ofOpcode (op : Byte) : Option Mnemonic :=
  if op = 0x01#8 then some .clz32
  else if op = 0x02#8 then some .msb128
  else if op = 0x03#8 then some .add
  else if op = 0x04#8 then some .sub
  else if op = 0x05#8 then some .mul
  else if op = 0x06#8 then some .sll
  else if op = 0x07#8 then some .srl
  else if op = 0x08#8 then some .sra
  else if op = 0x09#8 then some .divmod
  else none

/-- The command with these two operand fields, read as the mnemonic's form says (R42). -/
def Mnemonic.command (m : Mnemonic) (a b : Value) : Instr :=
  match m with
  | .clz32 => .clz32 (wordOperand a)
  | .msb128 => .msb128 a
  | .add => .add a b
  | .sub => .sub a b
  | .mul => .mul a b
  | .sll => .sll a (amountOperand b)
  | .srl => .srl a (amountOperand b)
  | .sra => .sra a (amountOperand b)
  | .divmod => .divmod a b

/-- Why bits are no command. -/
inductive DecodeError where
  /-- the `op` field is 0x00 or 0x0A to 0xFF (R44) -/
  | reservedOpcode (op : Byte)
  /-- a serial transfer that is not the 33 bytes of a command word (R31, R33) -/
  | wrongLength (bytes : Nat)
  deriving DecidableEq, Repr

/-- The answer of the decoder: a command, or the name of what is wrong. -/
inductive Decoded where
  | command (i : Instr)
  | illegal (e : DecodeError)
  deriving DecidableEq, Repr

/-- Decoding (R46): the opcode, then the operands; no other bit takes part. -/
def decode (w : CommandWord) : Decoded :=
  match Mnemonic.ofOpcode (opOf w) with
  | none => .illegal (.reservedOpcode (opOf w))
  | some m => .command (m.command (aOf w) (bOf w))

/-- Decoding from a byte-wide channel: 33 bytes, little-endian (R31). -/
def decodeBytes (bs : List Byte) : Decoded :=
  if bs.length = 33 then decode (BitVec.ofNat 264 (natOfBytes bs)) else .illegal (.wrongLength bs.length)

/-- The mnemonic of a command (R43). -/
def Instr.mnemonic : Instr → Mnemonic
  | .clz32 _ => .clz32
  | .msb128 _ => .msb128
  | .add _ _ => .add
  | .sub _ _ => .sub
  | .mul _ _ => .mul
  | .sll _ _ => .sll
  | .srl _ _ => .srl
  | .sra _ _ => .sra
  | .divmod _ _ => .divmod

/-- Operand field A of a command; a form W operand is the low word of it, with zeros above (R42, R45). -/
def Instr.fieldA : Instr → Value
  | .clz32 x => x.setWidth 128
  | .msb128 a => a
  | .add a _ => a
  | .sub a _ => a
  | .mul a _ => a
  | .sll a _ => a
  | .srl a _ => a
  | .sra a _ => a
  | .divmod a _ => a

/-- Operand field B of a command; an ignored field is written as zeros (R45). -/
def Instr.fieldB : Instr → Value
  | .clz32 _ => 0#128
  | .msb128 _ => 0#128
  | .add _ b => b
  | .sub _ b => b
  | .mul _ b => b
  | .sll _ k => BitVec.ofInt 128 k
  | .srl _ k => BitVec.ofInt 128 k
  | .sra _ k => BitVec.ofInt 128 k
  | .divmod _ b => b

/-- The command word of a command (R40, R43, R45). -/
def encode (i : Instr) : CommandWord := commandWord i.mnemonic.opcode i.fieldA i.fieldB

/-- The 33 bytes of a command as a byte-wide channel carries them (R31). -/
def encodeBytes (i : Instr) : List Byte := serialBytes (encode i) 33

/-- The command word whose bits, numbered as the opcode table numbers them, are the low `nbits` bits of `w`. -/
def tableWord (nbits w : Nat) : CommandWord := BitVec.ofNat 264 (w % 2 ^ nbits)

/-- The command the decoder reads from the table's bits `w`, laid out in serial order (R31) and given to the byte
decoder; `none` where it refuses. -/
def decodeTableWord (nbits w : Nat) : Option Instr :=
  match decodeBytes (serialBytes (tableWord nbits w) 33) with
  | .command i => some i
  | .illegal _ => none

end Sys2Proof
end

