-- ==== Sys2Proof/Machine/BitScan.lean ====
section
/-! DEFINITION. The bit-scan commands CLZ32 and MSB128 (spec/41_bitscan.md). -/

namespace Sys2Proof.Machine

/-- The count of CLZ32: "the number of j in 31 down to 0 with x[31:j] = 0" (R50). It is 32 for zero. -/
def clz32 (x : Limb) : Nat := (List.range 32).countP fun j => x >>> j == 0#32

/-- The largest index below `p` at which a bit of `n` is set; 0 if there is none. -/
def highestSetBit (n : Value) : Nat → Nat
  | 0 => 0
  | p + 1 => if n.getLsbD p then p else highestSetBit n p

/-- The index of MSB128: "the largest index p in 0..127 with n[p] = 1" (R51). For nonzero `n` only: nothing uses it at
zero. -/
def msb128 (n : Value) : Nat := highestSetBit n 128

/-- A leading-zero count over a half, made of two counts over 32 bits (R52). -/
def clz64 (w : Half) : Nat := if upperLimb w ≠ 0#32 then clz32 (upperLimb w) else 32 + clz32 (lowerLimb w)

/-- A leading-zero count over a value: the scanner's structure (R52). -/
def clz128 (n : Value) : Nat := if high n ≠ 0#64 then clz64 (high n) else 64 + clz64 (low n)

/-- CLZ32 (R50): `y = zext_128(bv_6(c))`. Total. -/
def execClz32 (x : Limb) (s : State) : Host.Outcome State Fault Refusal :=
  .next (s.respond ((BitVec.ofNat 6 (clz32 x)).setWidth 128) 0#128)

/-- MSB128 (R51): `y = zext_128(bv_7(m))`; Fatal(SCAN_ZERO) when `a` is the zero pattern. -/
def execMsb128 (a : Value) (s : State) : Host.Outcome State Fault Refusal :=
  if a = 0#128 then .next (s.raiseFatal .scanZero Mnemonic.msb128.opcode)
  else .next (s.respond ((BitVec.ofNat 7 (msb128 a)).setWidth 128) 0#128)

end Sys2Proof.Machine
end

