-- ==== Sys2Proof/Machine/Shift.lean ====
section
/-! DEFINITION. The shift units, SLL, SRL and SRA (spec/44_shift.md). The 64-bit shifters take an amount of type Fin 64,
so the hazard of R69, a 64-bit shift by 64 or more, cannot be written (U4). -/

namespace Sys2Proof.Machine

/-- `shl64(p, k)`, defined for 0 to 63 only (R69). -/
def shl64 (p : Half) (k : Fin 64) : Half := BitVec.ofNat 64 (p.toNat * 2 ^ k.val)

/-- `shr64(p, k)`, defined for 0 to 63 only (R69). -/
def shr64 (p : Half) (k : Fin 64) : Half := BitVec.ofNat 64 (p.toNat / 2 ^ k.val)

/-- `sar64(p, k)`, defined for 0 to 63 only (R69): floor division of the signed value. -/
def sar64 (p : Half) (k : Fin 64) : Half := BitVec.ofInt 64 (p.toInt / 2 ^ k.val)

/-- The left shift unit: three cases, bits crossing the half boundary in the middle one (R65, R69). -/
def sll128 (a : Value) (k : Fin 128) : Value :=
  if h0 : k.val = 0 then mk (high a) (low a)
  else if h1 : k.val ≤ 63 then
    mk (shl64 (high a) ⟨k.val, by omega⟩ ||| shr64 (low a) ⟨64 - k.val, by omega⟩) (shl64 (low a) ⟨k.val, by omega⟩)
  else mk (shl64 (low a) ⟨k.val - 64, by omega⟩) 0#64

/-- The right shift unit with zero fill (R66, R69). -/
def srl128 (a : Value) (k : Fin 128) : Value :=
  if h0 : k.val = 0 then mk (high a) (low a)
  else if h1 : k.val ≤ 63 then
    mk (shr64 (high a) ⟨k.val, by omega⟩) (shr64 (low a) ⟨k.val, by omega⟩ ||| shl64 (high a) ⟨64 - k.val, by omega⟩)
  else mk 0#64 (shr64 (high a) ⟨k.val - 64, by omega⟩)

/-- The right shift unit with sign fill (R67, R69). -/
def sra128 (a : Value) (k : Fin 128) : Value :=
  if h0 : k.val = 0 then mk (high a) (low a)
  else if h1 : k.val ≤ 63 then
    mk (sar64 (high a) ⟨k.val, by omega⟩) (shr64 (low a) ⟨k.val, by omega⟩ ||| shl64 (high a) ⟨64 - k.val, by omega⟩)
  else mk (sar64 (high a) 63) (sar64 (high a) ⟨k.val - 64, by omega⟩)

/-- SLL (R65); an amount outside 0 to 127 is undefined and refused (R68, U1). -/
def execSll (a : Value) (k : Int) (s : State) : Host.Outcome State Fault Refusal :=
  match legalAmount k with
  | some n => .next (s.respond (sll128 a n) 0#128)
  | none => .refused (.shiftAmountUndefined k)

/-- SRL (R66); an amount outside 0 to 127 is undefined and refused (R68, U1). -/
def execSrl (a : Value) (k : Int) (s : State) : Host.Outcome State Fault Refusal :=
  match legalAmount k with
  | some n => .next (s.respond (srl128 a n) 0#128)
  | none => .refused (.shiftAmountUndefined k)

/-- SRA (R67); an amount outside 0 to 127 is undefined and refused (R68, U1). -/
def execSra (a : Value) (k : Int) (s : State) : Host.Outcome State Fault Refusal :=
  match legalAmount k with
  | some n => .next (s.respond (sra128 a n) 0#128)
  | none => .refused (.shiftAmountUndefined k)

end Sys2Proof.Machine
end

