-- ==== Sys2Proof/Machine/Divide.lean ====
section
/-! DEFINITION. The shift-subtract long-division engine and DIVMOD (spec/45_divide.md). Comparisons are unsigned on the
patterns and the divisor's right shift fills with zeros: reading U (R74, log 1). -/

namespace Sys2Proof.Machine

/-- The amount that left-aligns the divisor: `MSB128(n) - MSB128(d)`, in the loop index's 7 bits (R73, R20). -/
def alignShift (n d : Value) : Fin 128 := Fin.ofNat 128 (msb128 n - msb128 d)

/-- The working values as the loop starts with them (R73). -/
def divInit (n d : Value) : DivWork := ⟨n, sll128 d (alignShift n d), 0#128, alignShift n d⟩

/-- The body of the loop: double the quotient, subtract the shifted divisor if it fits and set the quotient's low bit,
move the divisor one place right (R73). The loop index is the loop's own. -/
def divBody (w : DivWork) : DivWork :=
  let q2 := sll128 w.q 1
  if geu w.rem w.dd then ⟨sub128 w.rem w.dd, srl128 w.dd 1, q2 ||| 1#128, w.i⟩
  else ⟨w.rem, srl128 w.dd 1, q2, w.i⟩

/-- The body, this many times over. -/
def divLoop : Nat → DivWork → DivWork
  | 0, w => w
  | k + 1, w => divLoop k (divBody w)

/-- `DivMod(n, d)` for a nonzero `d`: cases (a), (b) and (c), the loop running `shift + 1` times (R73). -/
def divMod (n d : Value) : Value × Value :=
  if gtu d n then (0#128, n)
  else if eq128 d n then (1#128, 0#128)
  else
    let w := divLoop ((alignShift n d).val + 1) (divInit n d)
    (w.q, w.rem)

/-- How many iterations `DivMod(n, d)` performs: none in cases (a) and (b), `shift + 1` in case (c) (R79). -/
def iterations (n d : Value) : Nat :=
  if gtu d n || eq128 d n then 0 else (alignShift n d).val + 1

/-- START of the engine as a step of its own, after the zero-divisor test; cases (a) and (b) set `q` and `rem` alone
(R76). -/
def divStart (n d : Value) : Stage :=
  if gtu d n then .divided 0#128 n none
  else if eq128 d n then .divided 1#128 0#128 none
  else .iterating (divInit n d)

/-- ITER of the engine as a step of its own; the last one leaves all four working values to DONE (R76, R20). -/
def divIter (w : DivWork) : Stage :=
  let w' := divBody w
  if w.i = 0 then .divided w'.q w'.rem (some ⟨w'.dd, w'.i⟩) else .iterating { w' with i := w.i - 1 }

/-- DIVMOD (R72): Fatal(DIV_ZERO) when `b` is the zero pattern, tested before anything else. Otherwise the whole
division at once, or its START only, as the granularity says (R76). -/
def execDivmod (a b : Value) (s : State) : Host.Outcome State Fault Refusal :=
  if b = 0#128 then .next (s.raiseFatal .divZero Mnemonic.divmod.opcode)
  else
    match s.granularity with
    | .wholeCommand => .next (s.respond (divMod a b).1 (divMod a b).2)
    | .perIteration => .next (s.enterDivision (divStart a b))

end Sys2Proof.Machine
end

