-- ==== Sys2Proof/Machine/Multiply.lean ====
section
/-! DEFINITION. The multiplier, MUL, and the two datapaths the spec gives for it (spec/43_multiply.md). -/

namespace Sys2Proof.Machine

/-- `bv_128(U(a) * U(b))`: the exact product with bits 255:128 discarded (R60). -/
def mul128 (a b : Value) : Value := BitVec.ofNat 128 (a.toNat * b.toNat)

/-- `mul32(p, q)`: the 64-bit product of two 32-bit limbs; nothing is lost. -/
def mul32 (p q : Limb) : Half := BitVec.ofNat 64 (p.toNat * q.toNat)

/-- The cross terms with the high halves, of which only 64 bits reach the result (R61). -/
def crossTerms (a b : Value) : Half :=
  BitVec.ofNat 64 ((high a).toNat * (low b).toNat + (low a).toNat * (high b).toNat)

/-- One accumulation step of R61: the partial product `p`, weight 2^32, is added into `(hi, lo)` with its carry. -/
def accumulate (acc : Half × Half) (p : Half) : Half × Half :=
  let l := add64 acc.2 (shl64 p 32) false
  (BitVec.ofNat 64 (acc.1.toNat + (shr64 p 32).toNat + l.2.toNat), l.1)

/-- The schoolbook datapath: four 32-bit-limb partial products and the cross terms (R61). -/
def mulLimbs (a b : Value) : Value :=
  let a1 := upperLimb (low a)
  let a0 := lowerLimb (low a)
  let b1 := upperLimb (low b)
  let b0 := lowerLimb (low b)
  let start : Half × Half :=
    (BitVec.ofNat 64 ((mul32 a1 b1).toNat + (crossTerms a b).toNat), mul32 a0 b0)
  let acc := accumulate (accumulate start (mul32 a0 b1)) (mul32 a1 b0)
  mk acc.1 acc.2

/-- The widening datapath: a 64x64 to 128 multiply of the low halves in place of the four partial products (R62). -/
def mulWidening (a b : Value) : Value :=
  let p : Value := BitVec.ofNat 128 ((low a).toNat * (low b).toNat)
  mk (BitVec.ofNat 64 ((high p).toNat + (crossTerms a b).toNat)) (low p)

/-- MUL (R60). Total. -/
def execMul (a b : Value) (s : State) : Host.Outcome State Fault Refusal :=
  .next (s.respond (mul128 a b) 0#128)

end Sys2Proof.Machine
end

