-- ==== Sys2Proof/Machine/Dispatch.lean ====
section
/-! DEFINITION. The command on the command port, accepted and performed: one arm for each command of
spec/opcode_table.json (spec/30_encoding.md R43). -/

namespace Sys2Proof.Machine

def exec (i : Instr) (s : State) : Host.Outcome State Fault Refusal :=
  match i with
  | .clz32 x => Sys2Proof.Machine.execClz32 x s
  | .msb128 a => Sys2Proof.Machine.execMsb128 a s
  | .add a b => Sys2Proof.Machine.execAdd a b s
  | .sub a b => Sys2Proof.Machine.execSub a b s
  | .mul a b => Sys2Proof.Machine.execMul a b s
  | .sll a k => Sys2Proof.Machine.execSll a k s
  | .srl a k => Sys2Proof.Machine.execSrl a k s
  | .sra a k => Sys2Proof.Machine.execSra a k s
  | .divmod a b => Sys2Proof.Machine.execDivmod a b s

end Sys2Proof.Machine
end

