-- ==== Sys2Proof/Machine/Handshake.lean ====
section
/-! DEFINITION. One instant of the unit: reset, the halted unit, the command in flight, acceptance
(spec/70_reset_and_hazards.md R90 R94, 60_exceptions.md R84, 45_divide.md R76). -/

namespace Sys2Proof.Machine

/-- The command in flight goes one stage on: an ITER or the DONE of a stepped division (R76); a response is held until
the host takes it (R94). -/
def State.serve (s : State) (f : InFlight) : State :=
  match f.stage with
  | .iterating w => { s with inFlight := some ⟨f.cmd, divIter w⟩ }
  | .divided q r _ => { s with inFlight := some ⟨f.cmd, .answered ⟨q, r⟩⟩ }
  | .answered r => if s.pins.respReady then s.takeResponse r else s

/-- The word on the command port is accepted and performed (R46): the command it decodes to, or Fatal(ILLEGAL_CMD) for a
reserved `op`, whatever the operand fields hold (R44). -/
def State.accept (s : State) : Host.Outcome State Fault Refusal :=
  match decode s.pins.cmd with
  | .command i => exec i s
  | .illegal _ => .next (s.raiseFatal .illegalCmd (opOf s.pins.cmd))

/-- A halted unit accepts nothing (R84): the instant passes. When the host has nothing more to drive no reset can come,
and the run has ended in a fault (R96, log 4). -/
def State.remainHalted (s : State) : Host.Outcome State Fault Refusal :=
  match s.schedule with
  | [] => .fault (.halted s.status.cause s.status.fop)
  | _ :: _ => .next s.tick

/-- A unit that is ready accepts a command if one is presented (R94); else the instant passes. -/
def State.awaitCommand (s : State) : Host.Outcome State Fault Refusal :=
  if s.pins.cmdValid then endInstant s.accept else .next s.tick

/-- One instant. `rst` overrides everything (R82, R90); a halted unit accepts nothing (R84); at most one command is in
flight (R21). -/
def unitInstant (s : State) : Host.Outcome State Fault Refusal :=
  if s.pins.rst then .next s.applyReset.tick
  else if s.status.halted then s.remainHalted
  else
    match s.inFlight with
    | some f => .next (s.serve f).tick
    | none => s.awaitCommand

end Sys2Proof.Machine
end

