-- ==== Sys2Proof/Machine/Step.lean ====
section
/-! DEFINITION. The step of the machine: one instant (log 3). -/

namespace Sys2Proof.Machine

/-- One step of the machine is one instant of the unit and its host. -/
def step (s : State) : Host.Outcome State Fault Refusal := unitInstant s

/-- `s` with this command word presented by the host at this instant, and the unit ready for it, so that the very next
step accepts and performs exactly it (log 11). -/
def State.withFetchWord (s : State) (nbits w : Nat) : State := s.presents (tableWord nbits w)

end Sys2Proof.Machine
end

