-- ==== Sys2Proof/Machine/Abstract.lean ====
section
/-! DEFINITION. The abstract unit of spec/00_scope.md R6: a command word goes in, a response, a fatal or "undefined"
comes out, as a function of the word alone (spec/10_state.md R23). Each result is the rule's RESULT LAW on integers, not
a datapath; the machine's meanings are the datapaths, and that they agree is a statement about both. -/

namespace Sys2Proof.Machine

/-- The outcome of a command: `Respond(y, z) | Fatal(cause) | Undefined` (R6). -/
inductive Transaction where
  | respond (r : Response)
  | fatal (c : Cause)
  | undefined (k : Int)
  deriving DecidableEq, Repr

/-- A shift with this result, or undefined outside 0 to 127 (R68). -/
def shiftLaw (k : Int) (y : Nat → Value) : Transaction :=
  if 0 ≤ k ∧ k ≤ 127 then .respond ⟨y k.toNat, 0#128⟩ else .undefined k

/-- `exec(cmd)` of the abstract unit for a decoded command: the result laws of R50, R51, R55, R56, R60, R65, R66, R67
and R72. -/
def lawOf : Instr → Transaction
  | .clz32 x => .respond ⟨BitVec.ofNat 128 (if x.toNat = 0 then 32 else 31 - Nat.log2 x.toNat), 0#128⟩
  | .msb128 a => if a.toNat = 0 then .fatal .scanZero else .respond ⟨BitVec.ofNat 128 (Nat.log2 a.toNat), 0#128⟩
  | .add a b => .respond ⟨BitVec.ofNat 128 (a.toNat + b.toNat), 0#128⟩
  | .sub a b => .respond ⟨BitVec.ofInt 128 ((a.toNat : Int) - b.toNat), 0#128⟩
  | .mul a b => .respond ⟨BitVec.ofNat 128 (a.toNat * b.toNat), 0#128⟩
  | .sll a k => shiftLaw k fun n => BitVec.ofNat 128 (a.toNat * 2 ^ n)
  | .srl a k => shiftLaw k fun n => BitVec.ofNat 128 (a.toNat / 2 ^ n)
  | .sra a k => shiftLaw k fun n => BitVec.ofInt 128 (a.toInt / 2 ^ n)
  | .divmod a b =>
    if b.toNat = 0 then .fatal .divZero
    else .respond ⟨BitVec.ofNat 128 (a.toNat / b.toNat), BitVec.ofNat 128 (a.toNat % b.toNat)⟩

/-- `exec(cmd)` of the abstract unit (R6, R46): a reserved `op` is Fatal(ILLEGAL_CMD) (R44). -/
def transact (w : CommandWord) : Transaction :=
  match decode w with
  | .command i => lawOf i
  | .illegal _ => .fatal .illegalCmd

/-- How a run over a finite sequence of commands ends (R96), with the responses it has produced. -/
inductive RunEnd where
  | endsWell (rs : List Response)
  | endsInFault (rs : List Response) (c : Cause) (op : Byte)
  | noMeaning (rs : List Response) (k : Int)
  deriving DecidableEq, Repr

/-- The run with one more response in front. -/
def RunEnd.after (r : Response) : RunEnd → RunEnd
  | .endsWell rs => .endsWell (r :: rs)
  | .endsInFault rs c op => .endsInFault (r :: rs) c op
  | .noMeaning rs k => .noMeaning (r :: rs) k

/-- The run of the abstract unit on a sequence of commands: in order, and nothing after a fatal (R35, R96). -/
def abstractRun : List CommandWord → RunEnd
  | [] => .endsWell []
  | w :: ws =>
    match transact w with
    | .respond r => (abstractRun ws).after r
    | .fatal c => .endsInFault [] c (opOf w)
    | .undefined k => .noMeaning [] k

end Sys2Proof.Machine
end

