-- ==== Sys2Proof/Machine/Script.lean ====
section
/-! DEFINITION. The assembler's operands, the pseudo-instructions and host scripts (spec/30_encoding.md R47, R48, R49):
the host's side, of which the unit knows nothing. A literal is its number, not its characters (log 17). -/

namespace Sys2Proof.Machine

/-- An operand as R47 writes it. -/
inductive Numeral where
  /-- a decimal integer -/
  | dec (v : Int)
  /-- a hex pattern -/
  | hex (v : Nat)
  /-- a pair `H:L` of 64-bit literals -/
  | pair (h l : Int)
  | min
  | max
  | zero
  /-- `%n.y`, the `y` field of the response to line n, lines numbered from 1 (R49) -/
  | resultY (n : Nat)
  /-- `%n.z` -/
  | resultZ (n : Nat)
  deriving DecidableEq, Repr

/-- A 64-bit literal, decimal or hex. -/
def isHalfLiteral (v : Int) : Bool := decide (-(2 ^ 63) ≤ v) && decide (v < 2 ^ 64)

/-- The response to line n, lines numbered from 1 (R49). -/
def responseOfLine (rs : List Response) (n : Nat) : Option Response :=
  match n with
  | 0 => none
  | n + 1 => rs[n]?

/-- The 128-bit value an operand stands for, given the responses so far; `none` if it is no operand (R47, R49). -/
def Numeral.value (rs : List Response) : Numeral → Option Value
  | .dec v => if -(2 ^ 127) ≤ v ∧ v < 2 ^ 128 then some (BitVec.ofInt 128 v) else none
  | .hex v => if v < 2 ^ 128 then some (BitVec.ofNat 128 v) else none
  | .pair h l =>
    if isHalfLiteral h && isHalfLiteral l then some (mk (BitVec.ofInt 64 h) (BitVec.ofInt 64 l)) else none
  | .min => some int128Min
  | .max => some int128Max
  | .zero => some int128Zero
  | .resultY n => (responseOfLine rs n).map Response.y
  | .resultZ n => (responseOfLine rs n).map Response.z

/-- What may stand in the mnemonic place of a line: one of the nine (R43) or a pseudo-instruction (R48). -/
inductive AsmMnemonic where
  | core (m : Mnemonic)
  | neg
  | div
  | mod
  deriving DecidableEq, Repr

/-- The command a mnemonic stands for with these operands; `none` if their number is wrong or a form W operand does not
fit in 32 bits (R47, R48). Ignored fields are zeros. -/
def AsmMnemonic.expand (m : AsmMnemonic) (operands : List Value) : Option Instr :=
  match m, operands with
  | .core m, [a] =>
    match m.form with
    | .w => if a.toNat < 2 ^ 32 then some (m.command a 0#128) else none
    | .v => some (m.command a 0#128)
    | .vv => none
    | .vk => none
  | .core m, [a, b] =>
    match m.form with
    | .w => none
    | .v => none
    | .vv => some (m.command a b)
    | .vk => some (m.command a b)
  | .neg, [a] => some (.sub 0#128 a)
  | .div, [a, b] => some (.divmod a b)
  | .mod, [a, b] => some (.divmod a b)
  | _, _ => none

/-- The result the caller uses: `z` for MOD, `y` for every other (R48). -/
def AsmMnemonic.resultOf (m : AsmMnemonic) (r : Response) : Value :=
  match m with
  | .core _ => r.y
  | .neg => r.y
  | .div => r.y
  | .mod => r.z

/-- A line of a host script (R49). -/
structure Line where
  mnemonic : AsmMnemonic
  operands : List Numeral
  deriving DecidableEq, Repr

/-- The command a line stands for once the earlier responses are known (R49). -/
def Line.assemble (rs : List Response) (l : Line) : Option Instr :=
  (l.operands.mapM (Numeral.value rs)).bind l.mnemonic.expand

/-- How a script ends: as a run does, or at a line that is no line. -/
inductive ScriptEnd where
  | ran (e : RunEnd)
  | badLine (rs : List Response)
  deriving DecidableEq, Repr

/-- A host script, run from the responses so far: each line is formed from earlier results and performed; nothing after
a fatal is formed (R49, R96). -/
def runScript : List Line → List Response → ScriptEnd
  | [], rs => .ran (.endsWell rs)
  | l :: ls, rs =>
    match l.assemble rs with
    | none => .badLine rs
    | some i =>
      match lawOf i with
      | .respond r => runScript ls (rs ++ [r])
      | .fatal c => .ran (.endsInFault rs c i.mnemonic.opcode)
      | .undefined k => .ran (.noMeaning rs k)

end Sys2Proof.Machine
end

