-- ==== Sys2Proof/Safety.lean ====
section
/-! DEFINITION. The terms in which claims about the unit are made: a unit ready for a command, a run that ends well, and
the invariant every step keeps (spec/10_state.md R19, 45_divide.md R73, 60_exceptions.md R83, 70 R96). -/

namespace Sys2Proof.Machine

/-- The unit is ready and this command word is presented: it will be accepted at this instant (R94). -/
abbrev State.accepts (s : State) (w : CommandWord) : Prop :=
  s.cmdReady = true ∧ s.pins.cmdValid = true ∧ s.pins.cmd = w

/-- The command, accepted in any state, is answered with `y` and `z`, and nothing else changes: no STATUS, nothing of
the host, no other part of the state. -/
abbrev Answers (i : Instr) (y z : Value) : Prop :=
  ∀ s : State, exec i s = .next { s with inFlight := some ⟨s.pins.cmd, .answered ⟨y, z⟩⟩ }

/-- The command, accepted in any state, is fatal with this cause and leaves this FOP; nothing else changes but that
nothing is in flight (R83). -/
abbrev IsFatal (i : Instr) (c : Cause) (op : Byte) : Prop :=
  ∀ s : State, exec i s = .next { s with status := ⟨true, c.code, op⟩, inFlight := none }

/-- The end of a run that ends well: nothing in flight and HALTED = 0 (R96). A halted state is never one (R83). -/
abbrev State.endedWell (s : State) : Prop := s.inFlight = none ∧ s.status.halted = false

/-- What STATUS may hold (R19, R81): zero while HALTED is 0; else one of the three causes with an opcode that raises
it. -/
abbrev Status.Legal (st : Status) : Prop :=
  if st.halted then
    (st.cause = 1#3 ∧ st.fop = 0x09#8) ∨ (st.cause = 2#3 ∧ st.fop = 0x02#8) ∨
      (st.cause = 3#3 ∧ Mnemonic.ofOpcode st.fop = none)
  else st.cause = 0#3 ∧ st.fop = 0#8

/-- What holds of the working values of `DivMod(n, d)` at the start of the iteration with index `i` (R73). -/
abbrev DivWork.InLoop (n d : Value) (w : DivWork) : Prop :=
  w.i.val ≤ (alignShift n d).val ∧
  w.dd.toNat = d.toNat * 2 ^ w.i.val ∧
  w.rem.toNat < 2 * w.dd.toNat ∧
  w.q.toNat < 2 ^ ((alignShift n d).val - w.i.val) ∧
  n.toNat = w.q.toNat * d.toNat * 2 ^ (w.i.val + 1) + w.rem.toNat

/-- What holds of the command in flight: a stepped division is that of its own command's operands and is in its loop or
has the right quotient and remainder, with `dd` half the divisor and `i` zero if the loop ran, which it did unless the
dividend is at most the divisor; a response is the answer of its own command (R20, R23, R72, R73, R76). -/
abbrev InFlight.Legal (f : InFlight) : Prop :=
  match f.stage with
  | .iterating w =>
    opOf f.cmd = Mnemonic.divmod.opcode ∧ bOf f.cmd ≠ 0#128 ∧ w.InLoop (aOf f.cmd) (bOf f.cmd)
  | .divided q r rest =>
    opOf f.cmd = Mnemonic.divmod.opcode ∧ bOf f.cmd ≠ 0#128 ∧
      q.toNat = (aOf f.cmd).toNat / (bOf f.cmd).toNat ∧ r.toNat = (aOf f.cmd).toNat % (bOf f.cmd).toNat ∧
      match rest with
      | some l => l.i = 0 ∧ l.dd.toNat = (bOf f.cmd).toNat / 2
      | none => (aOf f.cmd).toNat ≤ (bOf f.cmd).toNat
  | .answered r => transact f.cmd = .respond r

/-- The invariant of the machine: STATUS is legal, a halted unit has nothing in flight (R83), and what is in flight is
legal. -/
abbrev State.Inv (s : State) : Prop :=
  s.status.Legal ∧ (s.status.halted = true → s.inFlight = none) ∧
    match s.inFlight with
    | none => True
    | some f => f.Legal

/-- The pins of a host that issues these commands one at a time and takes each response as soon as it is there
(R94, R97), for a unit that performs a command in one step. -/
def obedientSchedule : List CommandWord → List HostPins
  | [] => []
  | w :: ws => HostPins.present w :: HostPins.take :: obedientSchedule ws

end Sys2Proof.Machine
end

