-- ==== Sys2Proof/Certificates/Slice0/Obligations.lean ====
section
/-! DEFINITION. The statements about the machine, for the provers. `U(x)` is `x.toNat` and `S(x)` is `x.toInt`
(spec/00_scope.md section 6). -/

open Sys2Proof Sys2Proof.Machine

/-! ### The value format (spec/10_state.md) -/

/-- R10. The value is `high * 2^64 + low`, signed and unsigned, within its range, with bit 127 the sign. -/
def Obligations.ValueIsHighTimesTwoPow64PlusLow : Prop :=
  ∀ x : Value,
    x.toInt = (high x).toInt * 2 ^ 64 + (low x).toNat ∧
    x.toNat = (high x).toNat * 2 ^ 64 + (low x).toNat ∧
    -(2 ^ 127) ≤ x.toInt ∧ x.toInt ≤ 2 ^ 127 - 1 ∧ x.toNat ≤ 2 ^ 128 - 1 ∧
    (x.toNat : Int) = x.toInt % 2 ^ 128 ∧
    (x.toInt < 0 ↔ x.getLsbD 127 = true)

/-- R12. Composition and decomposition are inverse, and are the layout of a 128-bit field in a command word and in a
response word. -/
def Obligations.ComposeAndDecomposeAreInverse : Prop :=
  (∀ h l : Half, decompose (mk h l) = (h, l)) ∧
  (∀ x : Value, mk (decompose x).1 (decompose x).2 = x) ∧
  (∀ w : CommandWord,
    high (aOf w) = w.extractLsb' 192 64 ∧ low (aOf w) = w.extractLsb' 128 64 ∧
    high (bOf w) = w.extractLsb' 64 64 ∧ low (bOf w) = w.extractLsb' 0 64) ∧
  (∀ r : Response,
    r.word.extractLsb' 192 64 = high r.y ∧ r.word.extractLsb' 128 64 = low r.y ∧
    r.word.extractLsb' 64 64 = high r.z ∧ r.word.extractLsb' 0 64 = low r.z)

/-- The values of the three constants (R13; the patterns are marked as derived from R10). -/
def Obligations.ConstantsOfTheValueType : Prop :=
  int128Min.toInt = -170141183460469231731687303715884105728 ∧
  int128Max.toInt = 170141183460469231731687303715884105727 ∧
  int128Zero.toInt = 0 ∧
  int128Min.toInt = -(2 ^ 127) ∧ int128Max.toInt = 2 ^ 127 - 1 ∧
  decompose int128Min = (0x8000000000000000#64, 0#64) ∧
  decompose int128Max = (0x7FFFFFFFFFFFFFFF#64, 0xFFFFFFFFFFFFFFFF#64) ∧
  decompose int128Zero = (0#64, 0#64)

/-- R15, with what it infers from R10: the order is the signed one and total, computable by halves; it and the unsigned comparator differ exactly
when the sign bits differ. -/
def Obligations.SignedOrderOfTheValueType : Prop :=
  (∀ x y : Value, lts x y = true ↔ x.toInt < y.toInt) ∧
  (∀ x y : Value, lts x y = true ∨ x = y ∨ lts y x = true) ∧
  lts int128Min int128Zero = true ∧ lts int128Zero int128Max = true ∧
  (∀ x y : Value, lts x y = true ↔
    (high x).toInt < (high y).toInt ∨ (high x = high y ∧ (low x).toNat < (low y).toNat)) ∧
  (∀ x y : Value, lts x y ≠ ltu x y ↔ x.getLsbD 127 ≠ y.getLsbD 127)

/-! ### Encoding (spec/30_encoding.md) -/

/-- Decoding the encoding of any command the word can carry gives it back, with every operand at every value. -/
def Obligations.DecodeOfEncodeIsIdentity : Prop :=
  ∀ i : Instr, i.wellFormed = true → decode (encode i) = .command i

/-- The other direction: a word that decodes is, field by field, the encoding of what it decodes to, less the fields
its form ignores; and what it decodes to is well-formed. -/
def Obligations.EncodeOfDecodeKeepsReadFields : Prop :=
  ∀ (w : CommandWord) (i : Instr), decode w = .command i →
    i.wellFormed = true ∧
    opOf (encode i) = opOf w ∧
    (i.mnemonic ≠ .clz32 → aOf (encode i) = aOf w) ∧
    (i.mnemonic = .clz32 → aOf (encode i) = (wordOperand (aOf w)).setWidth 128) ∧
    (i.mnemonic ≠ .clz32 → i.mnemonic ≠ .msb128 → encode i = w) ∧
    (i.mnemonic = .clz32 ∨ i.mnemonic = .msb128 → bOf (encode i) = 0#128)

/-- Words written out from the encoding tables and the examples of the rules decode to their commands. -/
def Obligations.SampleWordsDecodeAsTheSpecWritesThem : Prop :=
  decode 0x010000000000000000000000000001000000000000000000000000000000000000#264
    = .command (.clz32 0x00010000#32) ∧
  decode 0x020000001000000000000000000000000000000000000000000000000000000000#264
    = .command (.msb128 (mk 0x0000001000000000#64 0#64)) ∧
  decode 0x030000000000000000FFFFFFFFFFFFFFFF00000000000000000000000000000001#264
    = .command (.add (mk 0#64 0xFFFFFFFFFFFFFFFF#64) 1#128) ∧
  decode 0x040000000000000001000000000000000000000000000000000000000000000001#264
    = .command (.sub (mk 1#64 0#64) 1#128) ∧
  decode 0x050000000000000000FFFFFFFFFFFFFFFF0000000000000000FFFFFFFFFFFFFFFF#264
    = .command (.mul (mk 0#64 0xFFFFFFFFFFFFFFFF#64) (mk 0#64 0xFFFFFFFFFFFFFFFF#64)) ∧
  decode 0x060000000000000000800000000000000100000000000000000000000000000001#264
    = .command (.sll (mk 0#64 0x8000000000000001#64) 1) ∧
  decode 0x07800000000000000000000000000000000000000000000000000000000000007F#264
    = .command (.srl (mk 0x8000000000000000#64 0#64) 127) ∧
  decode 0x0800000000000000000000000000000001FFFFFFFFFFFFFFFFFFFFFFFFFFFFFFC0#264
    = .command (.sra 1#128 (-64)) ∧
  decode 0x090000000000000000000000000000000A00000000000000000000000000000003#264
    = .command (.divmod 10#128 3#128)

/-- The opcode map is one to one onto 0x01 to 0x09 (the columns `op`, `mnemonic` and `form` of R43's table). -/
def Obligations.OpcodeMapIsOneToOne : Prop :=
  (∀ (op : Byte) (m : Mnemonic), Mnemonic.ofOpcode op = some m ↔ op = m.opcode) ∧
  (∀ op : Byte, (Mnemonic.ofOpcode op).isSome = true ↔ 1 ≤ op.toNat ∧ op.toNat ≤ 9) ∧
  [Mnemonic.clz32, .msb128, .add, .sub, .mul, .sll, .srl, .sra, .divmod].map (fun m => (m.opcode.toNat, m.form)) =
    [(1, .w), (2, .v), (3, .vv), (4, .vv), (5, .vv), (6, .vk), (7, .vk), (8, .vk), (9, .vv)]

/-- R44. Each of the 247 reserved values of `op` raises Fatal(ILLEGAL_CMD) whatever the operands hold, the all-zero word
among them; within a legal opcode every operand pattern is decoded. -/
def Obligations.ReservedOpcodesAreIllegal : Prop :=
  (∀ (s : State) (op : Byte) (a b : Value), (op = 0x00#8 ∨ 0x0A#8 ≤ op) → s.accepts (commandWord op a b) →
    decode (commandWord op a b) = .illegal (.reservedOpcode op) ∧
    step s = .next (State.tick { s with status := ⟨true, 3#3, op⟩, inFlight := none })) ∧
  decode 0#264 = .illegal (.reservedOpcode 0x00#8) ∧
  (∀ (m : Mnemonic) (a b : Value), decode (commandWord m.opcode a b) = .command (m.command a b))

/-- R45. Bits of an ignored field do not affect the outcome and are not checked; encoding writes zeros there. -/
def Obligations.IgnoredFieldsDoNotMatter : Prop :=
  (∀ (a a' b b' : Value), wordOperand a = wordOperand a' →
    decode (commandWord 0x01#8 a b) = decode (commandWord 0x01#8 a' b') ∧
    decode (commandWord 0x01#8 a b) = .command (.clz32 (wordOperand a))) ∧
  (∀ (a b b' : Value),
    decode (commandWord 0x02#8 a b) = decode (commandWord 0x02#8 a b') ∧
    decode (commandWord 0x02#8 a b) = .command (.msb128 a)) ∧
  (∀ x : Limb, encode (.clz32 x) = commandWord 0x01#8 (x.setWidth 128) 0#128) ∧
  (∀ a : Value, encode (.msb128 a) = commandWord 0x02#8 a 0#128)

/-- A word carried over a byte-wide channel, least significant byte first, arrives as itself (R31): 33 bytes a command,
32 a response, and a transfer of another length is refused. -/
def Obligations.SerialTransferRoundTrips : Prop :=
  (∀ w : CommandWord, (serialBytes w 33).length = 33 ∧ natOfBytes (serialBytes w 33) = w.toNat ∧
    decodeBytes (serialBytes w 33) = decode w) ∧
  (∀ r : Response, r.bytes.length = 32 ∧ natOfBytes r.bytes = r.word.toNat) ∧
  (∀ bs : List Byte, bs.length ≠ 33 → decodeBytes bs = .illegal (.wrongLength bs.length)) ∧
  (∀ w : CommandWord, decodeTableWord 264 w.toNat =
    match decode w with
    | .command i => some i
    | .illegal _ => none)

/-- R48. The pseudo-instructions are the commands they expand to, with the results they are used for. -/
def Obligations.PseudoInstructionsExpand : Prop :=
  ∀ a b : Value,
    AsmMnemonic.neg.expand [a] = some (.sub 0#128 a) ∧
    Answers (.sub 0#128 a) (BitVec.ofInt 128 (-a.toInt)) 0#128 ∧
    AsmMnemonic.div.expand [a, b] = some (.divmod a b) ∧
    AsmMnemonic.mod.expand [a, b] = some (.divmod a b) ∧
    AsmMnemonic.expand (.core .divmod) [a, b] = some (.divmod a b) ∧
    IsFatal (.divmod a 0#128) .divZero 0x09#8 ∧
    (∀ r : Response, AsmMnemonic.div.resultOf r = r.y ∧ AsmMnemonic.mod.resultOf r = r.z ∧
      AsmMnemonic.neg.resultOf r = r.y)

/-! ### Bit scan (spec/41_bitscan.md) -/

/-- R50. CLZ32 answers the number of zero bits above the first set bit, 32 for zero, in every state. -/
def Obligations.Clz32CountsLeadingZeros : Prop :=
  (∀ w : CommandWord, opOf w = 0x01#8 → decode w = .command (.clz32 ((aOf w).extractLsb' 0 32))) ∧
  (∀ x : Limb, ∃ c : Nat, c ≤ 32 ∧ Answers (.clz32 x) (BitVec.ofNat 128 c) 0#128 ∧
    (x = 0#32 → c = 32) ∧
    (∀ p : Nat, p < 32 → x.getLsbD p = true → (∀ j : Nat, p < j → x.getLsbD j = false) → c = 31 - p)) ∧
  Answers (.clz32 1#32) 31#128 0#128 ∧ Answers (.clz32 0x80000000#32) 0#128 0#128 ∧
  Answers (.clz32 0xFFFFFFFF#32) 0#128 0#128 ∧ Answers (.clz32 0x00010000#32) 15#128 0#128 ∧
  decode 0x01FFFFFFFFFFFFFFFFFFFFFFFF0000000000000000000000000000000000000000#264 = .command (.clz32 0#32) ∧
  decode 0x010000000000000000000000000001000000000000000000000000000000000000#264
    = .command (.clz32 0x00010000#32)

/-- R51. MSB128 answers the index of the highest set bit of a nonzero pattern, and is Fatal(SCAN_ZERO) on zero. -/
def Obligations.Msb128FindsTheHighestSetBit : Prop :=
  (∀ w : CommandWord, opOf w = 0x02#8 → decode w = .command (.msb128 (aOf w))) ∧
  (∀ a : Value, a ≠ 0#128 → ∃ m : Nat, m ≤ 127 ∧ Answers (.msb128 a) (BitVec.ofNat 128 m) 0#128 ∧
    a.getLsbD m = true ∧ (∀ j : Nat, m < j → a.getLsbD j = false) ∧ (a.toInt < 0 → m = 127)) ∧
  IsFatal (.msb128 0#128) .scanZero 0x02#8 ∧
  Answers (.msb128 1#128) 0#128 0#128 ∧
  (∀ k : Nat, k ∈ [32, 63, 64, 96, 100] → Answers (.msb128 (BitVec.ofNat 128 (2 ^ k))) (BitVec.ofNat 128 k) 0#128) ∧
  Answers (.msb128 (BitVec.ofInt 128 (-1))) 127#128 0#128 ∧ Answers (.msb128 int128Min) 127#128 0#128 ∧
  Answers (.msb128 int128Max) 126#128 0#128 ∧
  decode 0x020000001000000000000000000000000000000000000000000000000000000000#264
    = .command (.msb128 (BitVec.ofNat 128 (2 ^ 100)))

/-- The scanner's structure of R52 (whose composition the spec marks as derived), two 32-bit counts to a half and two halves to a value, has the result of R51. -/
def Obligations.ScannerStructureFindsTheHighestSetBit : Prop :=
  (∀ w : Half, clz64 w = (if upperLimb w ≠ 0#32 then clz32 (upperLimb w) else 32 + clz32 (lowerLimb w)) ∧
    clz64 w ≤ 64 ∧ (clz64 w = 64 ↔ w = 0#64)) ∧
  (∀ n : Value, clz128 n = (if high n ≠ 0#64 then clz64 (high n) else 64 + clz64 (low n)) ∧
    clz128 n ≤ 128 ∧ (clz128 n = 128 ↔ n = 0#128)) ∧
  (∀ n : Value, n ≠ 0#128 → msb128 n = 127 - clz128 n ∧
    (high n ≠ 0#64 → msb128 n = 64 + (63 - clz64 (high n))) ∧
    (high n = 0#64 → msb128 n = 63 - clz64 (low n)))

/-- The laws of the bit scans (R54, marked as derived from R50, R51 and R52). -/
def Obligations.BitScanLaws : Prop :=
  (∀ n : Value, n ≠ 0#128 → 2 ^ msb128 n ≤ n.toNat ∧ n.toNat < 2 ^ (msb128 n + 1)) ∧
  (∀ x : Limb, x.toNat < 2 ^ (32 - clz32 x)) ∧
  (∀ x : Limb, x ≠ 0#32 → 2 ^ (31 - clz32 x) ≤ x.toNat ∧ msb128 (x.setWidth 128) = 31 - clz32 x) ∧
  (∀ (n : Value) (k : Fin 128), n ≠ 0#128 → k.val ≤ 127 - msb128 n → msb128 (sll128 n k) = msb128 n + k.val)

/-! ### Addition and subtraction (spec/42_add_subtract.md) -/

/-- R55. ADD answers what the two-limb adder gives, which is the sum modulo 2^128, in every state. -/
def Obligations.AddIsTheSumModuloTwoPow128 : Prop :=
  (∀ w : CommandWord, opOf w = 0x03#8 → decode w = .command (.add (aOf w) (bOf w))) ∧
  (∀ (a b : Value) (lo hi : Half) (c c2 : Bool),
    add64 (low a) (low b) false = (lo, c) → add64 (high a) (high b) c = (hi, c2) →
    Answers (.add a b) (mk hi lo) 0#128) ∧
  (∀ a b : Value, ∃ y : Value, Answers (.add a b) y 0#128 ∧
    y.toNat = (a.toNat + b.toNat) % 2 ^ 128 ∧ y.toInt = (a.toInt + b.toInt).bmod (2 ^ 128)) ∧
  (∀ a : Value, Answers (.add a 0#128) a 0#128) ∧
  Answers (.add int128Max 1#128) int128Min 0#128 ∧
  Answers (.add (BitVec.ofInt 128 (-1)) 1#128) 0#128 0#128 ∧
  Answers (.add (mk 0#64 0xFFFFFFFFFFFFFFFF#64) (mk 0#64 1#64)) (mk 1#64 0#64) 0#128 ∧
  Answers (.add int128Min int128Min) 0#128 0#128 ∧
  decode 0x030000000000000000FFFFFFFFFFFFFFFF00000000000000000000000000000001#264
    = .command (.add (mk 0#64 0xFFFFFFFFFFFFFFFF#64) 1#128)

/-- R56. SUB answers what the two-limb subtractor gives, which is the difference modulo 2^128, in every state. -/
def Obligations.SubIsTheDifferenceModuloTwoPow128 : Prop :=
  (∀ w : CommandWord, opOf w = 0x04#8 → decode w = .command (.sub (aOf w) (bOf w))) ∧
  (∀ (a b : Value) (lo hi : Half) (br br2 : Bool),
    sub64 (low a) (low b) false = (lo, br) → sub64 (high a) (high b) br = (hi, br2) →
    Answers (.sub a b) (mk hi lo) 0#128) ∧
  (∀ a b : Value, ∃ y : Value, Answers (.sub a b) y 0#128 ∧
    (y.toNat : Int) = ((a.toNat : Int) - b.toNat) % 2 ^ 128 ∧ y.toInt = (a.toInt - b.toInt).bmod (2 ^ 128)) ∧
  (∀ a : Value, Answers (.sub a 0#128) a 0#128 ∧ Answers (.sub a a) 0#128 0#128) ∧
  Answers (.sub 0#128 1#128) (BitVec.ofInt 128 (-1)) 0#128 ∧
  Answers (.sub (mk 1#64 0#64) (mk 0#64 1#64)) (mk 0#64 0xFFFFFFFFFFFFFFFF#64) 0#128 ∧
  Answers (.sub int128Min 1#128) int128Max 0#128 ∧
  Answers (.sub 0#128 int128Min) int128Min 0#128 ∧
  decode 0x040000000000000001000000000000000000000000000000000000000000000001#264
    = .command (.sub (mk 1#64 0#64) 1#128)

/-- Addition is commutative and associative and has a zero, and subtraction is adding the two's complement: what the spec
infers from the result laws of R55 and R56 ("[derived: ...]" there). -/
def Obligations.AdditionLaws : Prop :=
  (∀ a b c : Value, add128 a b = add128 b a ∧ add128 (add128 a b) c = add128 a (add128 b c) ∧ add128 a 0#128 = a) ∧
  (∀ a b : Value, sub128 a b = add128 (add128 a (~~~b)) 1#128 ∧ sub128 a b = add128 a (sub128 0#128 b) ∧
    add128 a (sub128 0#128 a) = 0#128)

/-- The carry and the borrow out of a half are what the tests of R57 give (an inference the spec marks as its own), and
one 128-bit adder does the same. -/
def Obligations.CarryAndBorrowHaveTheirTests : Prop :=
  (∀ p q : Half,
    ((add64 p q false).2 = true ↔ (add64 p q false).1.toNat < p.toNat) ∧
    ((add64 p q false).2 = true ↔ (add64 p q false).1.toNat < q.toNat) ∧
    ((sub64 p q false).2 = true ↔ p.toNat < q.toNat)) ∧
  (∀ (p q : Half) (c : Bool),
    p.toNat + q.toNat + c.toNat = (add64 p q c).2.toNat * 2 ^ 64 + (add64 p q c).1.toNat ∧
    (p.toNat : Int) - q.toNat - c.toNat = (sub64 p q c).1.toNat - (sub64 p q c).2.toNat * 2 ^ 64) ∧
  (∀ a b : Value, add128 a b = a + b ∧ sub128 a b = a - b)

/-- R58. Overflow of ADD and SUB wraps and is silent: the signed result is exact within the range, and outside it is the
exact result less or plus 2^128; nothing but the answer tells. -/
def Obligations.OverflowWrapsSilently : Prop :=
  ∀ a b : Value,
    Answers (.add a b) (add128 a b) 0#128 ∧ Answers (.sub a b) (sub128 a b) 0#128 ∧
    ((add128 a b).toNat : Int) = ((a.toNat : Int) + b.toNat) % 2 ^ 128 ∧
    ((sub128 a b).toNat : Int) = ((a.toNat : Int) - b.toNat) % 2 ^ 128 ∧
    (-(2 ^ 127) ≤ a.toInt + b.toInt ∧ a.toInt + b.toInt ≤ 2 ^ 127 - 1 ↔ (add128 a b).toInt = a.toInt + b.toInt) ∧
    (2 ^ 127 - 1 < a.toInt + b.toInt → (add128 a b).toInt = a.toInt + b.toInt - 2 ^ 128) ∧
    (a.toInt + b.toInt < -(2 ^ 127) → (add128 a b).toInt = a.toInt + b.toInt + 2 ^ 128) ∧
    (-(2 ^ 127) ≤ a.toInt - b.toInt ∧ a.toInt - b.toInt ≤ 2 ^ 127 - 1 ↔ (sub128 a b).toInt = a.toInt - b.toInt) ∧
    (2 ^ 127 - 1 < a.toInt - b.toInt → (sub128 a b).toInt = a.toInt - b.toInt - 2 ^ 128) ∧
    (a.toInt - b.toInt < -(2 ^ 127) → (sub128 a b).toInt = a.toInt - b.toInt + 2 ^ 128)

/-- NEG is SUB from zero, and is the one negation under addition modulo 2^128 (R59, which the spec infers from R55). -/
def Obligations.NegationIsSubtractionFromZero : Prop :=
  (∀ a : Value, AsmMnemonic.neg.expand [a] = some (.sub 0#128 a) ∧
    Answers (.sub 0#128 a) (BitVec.ofInt 128 (-a.toInt)) 0#128 ∧
    BitVec.ofInt 128 (-a.toInt) = BitVec.ofNat 128 (2 ^ 128 - a.toNat) ∧
    (∀ y : Value, add128 a y = 0#128 ↔ y = sub128 0#128 a)) ∧
  Answers (.sub 0#128 0#128) 0#128 0#128 ∧ Answers (.sub 0#128 int128Min) int128Min 0#128 ∧
  Answers (.sub 0#128 1#128) 0xFFFFFFFFFFFFFFFFFFFFFFFFFFFFFFFF#128 0#128 ∧
  int128Min = 0x80000000000000000000000000000000#128 ∧ int128Min.toNat = 2 ^ 127 ∧
  decode 0x040000000000000000000000000000000000000000000000000000000000000001#264
    = .command (.sub 0#128 1#128)

/-! ### Multiplication (spec/43_multiply.md) -/

/-- R60. MUL answers the low 128 bits of the product, signed and unsigned alike, in every state. -/
def Obligations.MulIsTheLowProduct : Prop :=
  (∀ w : CommandWord, opOf w = 0x05#8 → decode w = .command (.mul (aOf w) (bOf w))) ∧
  (∀ a b : Value, ∃ y : Value, Answers (.mul a b) y 0#128 ∧ y = BitVec.ofNat 128 (a.toNat * b.toNat) ∧
    y.toNat = a.toNat * b.toNat % 2 ^ 128 ∧ (y.toNat : Int) = a.toInt * b.toInt % 2 ^ 128 ∧
    Answers (.mul b a) y 0#128) ∧
  (∀ a : Value, Answers (.mul a 1#128) a 0#128 ∧ Answers (.mul a 0#128) 0#128 0#128 ∧
    Answers (.mul (BitVec.ofInt 128 (-1)) a) (sub128 0#128 a) 0#128) ∧
  Answers (.mul (BitVec.ofInt 128 (-1)) (BitVec.ofInt 128 (-1))) 1#128 0#128 ∧
  Answers (.mul int128Min (BitVec.ofInt 128 (-1))) int128Min 0#128 ∧
  Answers (.mul int128Min 2#128) 0#128 0#128 ∧
  Answers (.mul (mk 1#64 0#64) (mk 1#64 0#64)) 0#128 0#128 ∧
  Answers (.mul int128Max int128Max) 1#128 0#128 ∧
  Answers (.mul int128Max 2#128) (BitVec.ofInt 128 (-2)) 0#128 ∧
  Answers (.mul (mk 0#64 0xFFFFFFFFFFFFFFFF#64) (mk 0#64 0xFFFFFFFFFFFFFFFF#64))
    0xFFFFFFFFFFFFFFFE0000000000000001#128 0#128 ∧
  (0xFFFFFFFFFFFFFFFE0000000000000001#128).toNat = 2 ^ 128 - 2 ^ 65 + 1 ∧
  decode 0x050000000000000000FFFFFFFFFFFFFFFF0000000000000000FFFFFFFFFFFFFFFF#264
    = .command (.mul (mk 0#64 0xFFFFFFFFFFFFFFFF#64) (mk 0#64 0xFFFFFFFFFFFFFFFF#64))

/-- The schoolbook datapath computes R60 (R61; the inference is marked as the spec's own), with the reasons given there: the split of the product by halves and the
split of the low product by limbs, the cross product made from 32-bit limbs, and the ten limb products. -/
def Obligations.LimbMultiplierIsTheMultiplier : Prop :=
  ∀ a b : Value,
    mulLimbs a b = mul128 a b ∧
    a.toNat * b.toNat = (high a).toNat * (high b).toNat * 2 ^ 128 +
      ((high a).toNat * (low b).toNat + (low a).toNat * (high b).toNat) * 2 ^ 64 + (low a).toNat * (low b).toNat ∧
    (low a).toNat * (low b).toNat =
      (mul32 (lowerLimb (low a)) (lowerLimb (low b))).toNat +
      ((mul32 (lowerLimb (low a)) (upperLimb (low b))).toNat + (mul32 (upperLimb (low a)) (lowerLimb (low b))).toNat) *
        2 ^ 32 +
      (mul32 (upperLimb (low a)) (upperLimb (low b))).toNat * 2 ^ 64 ∧
    (∀ p q : Half, BitVec.ofNat 64 (p.toNat * q.toNat) = BitVec.ofNat 64
      ((mul32 (lowerLimb p) (lowerLimb q)).toNat +
        ((mul32 (lowerLimb p) (upperLimb q)).toNat + (mul32 (upperLimb p) (lowerLimb q)).toNat) * 2 ^ 32)) ∧
    mul128 a b = BitVec.ofNat 128
      (([(0, 0), (0, 1), (0, 2), (0, 3), (1, 0), (1, 1), (1, 2), (2, 0), (2, 1), (3, 0)] : List (Nat × Nat)).map
        fun ij => (limb a ij.1).toNat * (limb b ij.2).toNat * 2 ^ (32 * (ij.1 + ij.2))).sum

/-- The widening datapath agrees bit for bit with the schoolbook datapath and with the multiplier (R62). -/
def Obligations.WideningMultiplierAgrees : Prop :=
  ∀ a b : Value, mulWidening a b = mul128 a b ∧ mulWidening a b = mulLimbs a b

/-- The algebraic laws of the multiplier, and that it has no law of cancellation (R63, marked as derived from R60). -/
def Obligations.MultiplierLaws : Prop :=
  (∀ a b c : Value, mul128 a b = mul128 b a ∧ mul128 (mul128 a b) c = mul128 a (mul128 b c) ∧
    mul128 a (add128 b c) = add128 (mul128 a b) (mul128 a c) ∧
    mul128 a 1#128 = a ∧ mul128 a 0#128 = 0#128) ∧
  (∀ (a : Value) (k : Fin 128), mul128 a (BitVec.ofNat 128 (2 ^ k.val)) = sll128 a k) ∧
  mul128 (BitVec.ofNat 128 (2 ^ 64)) (BitVec.ofNat 128 (2 ^ 64)) = 0#128 ∧ BitVec.ofNat 128 (2 ^ 64) ≠ (0#128 : Value)

/-- Signedness does not matter for MUL (R64, marked as derived from R10). -/
def Obligations.MultiplierIgnoresSignedness : Prop :=
  ∀ a b : Value,
    a.toInt = a.toNat - 2 ^ 128 * ((a.getLsbD 127).toNat : Int) ∧
    (2 ^ 128 : Int) ∣ a.toInt * b.toInt - a.toNat * b.toNat ∧
    BitVec.ofInt 128 (a.toInt * b.toInt) = BitVec.ofNat 128 (a.toNat * b.toNat) ∧
    Answers (.mul a b) (BitVec.ofInt 128 (a.toInt * b.toInt)) 0#128

/-! ### Shifts (spec/44_shift.md) -/

/-- R65. SLL by 0 to 127 answers the three-case shift, which multiplies by 2^k modulo 2^128, in every state; any other
amount is the undefined one of R68. -/
def Obligations.SllShiftsLeftWithZeroFill : Prop :=
  (∀ w : CommandWord, opOf w = 0x06#8 → decode w = .command (.sll (aOf w) (bOf w).toInt)) ∧
  (∀ (a : Value) (k : Nat), k ≤ 127 → ∃ hi lo : Half, Answers (.sll a k) (mk hi lo) 0#128 ∧
    (mk hi lo).toNat = a.toNat * 2 ^ k % 2 ^ 128 ∧
    (k = 0 → hi = high a ∧ lo = low a) ∧
    (1 ≤ k → k ≤ 63 → hi = (high a <<< k ||| low a >>> (64 - k)) ∧ lo = low a <<< k) ∧
    (64 ≤ k → hi = low a <<< (k - 64) ∧ lo = 0#64)) ∧
  (∀ (a : Value) (k : Int) (s : State), k < 0 ∨ 127 < k → exec (.sll a k) s = .refused (.shiftAmountUndefined k)) ∧
  (∀ a : Value, Answers (.sll a 64) (mk (low a) 0#64) 0#128 ∧ Answers (.sll a 1) (add128 a a) 0#128 ∧
    ∃ y : Value, Answers (.sll a 127) y 0#128 ∧ y = (if a.getLsbD 0 then int128Min else 0#128)) ∧
  Answers (.sll 1#128 127) int128Min 0#128 ∧
  (∀ k : Nat, k ≤ 127 → Answers (.sll (BitVec.ofInt 128 (-1)) k) (BitVec.ofInt 128 (-(2 ^ k))) 0#128) ∧
  decode 0x060000000000000000800000000000000100000000000000000000000000000001#264
    = .command (.sll (mk 0#64 0x8000000000000001#64) 1) ∧
  Answers (.sll (mk 0#64 0x8000000000000001#64) 1) (mk 1#64 2#64) 0#128

/-- R66. SRL by 0 to 127 answers the three-case shift, which is floor division of the pattern by 2^k, in every state;
any other amount is the undefined one of R68. -/
def Obligations.SrlShiftsRightWithZeroFill : Prop :=
  (∀ w : CommandWord, opOf w = 0x07#8 → decode w = .command (.srl (aOf w) (bOf w).toInt)) ∧
  (∀ (a : Value) (k : Nat), k ≤ 127 → ∃ hi lo : Half, Answers (.srl a k) (mk hi lo) 0#128 ∧
    (mk hi lo).toNat = a.toNat / 2 ^ k ∧
    (k = 0 → hi = high a ∧ lo = low a) ∧
    (1 ≤ k → k ≤ 63 → hi = high a >>> k ∧ lo = (low a >>> k ||| high a <<< (64 - k))) ∧
    (64 ≤ k → hi = 0#64 ∧ lo = high a >>> (k - 64))) ∧
  (∀ (a : Value) (k : Int) (s : State), k < 0 ∨ 127 < k → exec (.srl a k) s = .refused (.shiftAmountUndefined k)) ∧
  (∀ a : Value, Answers (.srl a 64) (mk 0#64 (high a)) 0#128 ∧
    Answers (.srl a 127) (if a.getLsbD 127 then 1#128 else 0#128) 0#128) ∧
  (∀ (a : Value) (k : Fin 128), a.getLsbD 127 = false → srl128 a k = sra128 a k) ∧
  Answers (.srl (BitVec.ofInt 128 (-1)) 1) int128Max 0#128 ∧
  decode 0x07800000000000000000000000000000000000000000000000000000000000007F#264
    = .command (.srl (mk 0x8000000000000000#64 0#64) 127) ∧
  Answers (.srl (mk 0x8000000000000000#64 0#64) 127) 1#128 0#128

/-- R67. SRA by 0 to 127 answers the three-case shift, which is floor division of the signed value by 2^k, in every
state; any other amount is the undefined one of R68. -/
def Obligations.SraShiftsRightWithSignFill : Prop :=
  (∀ w : CommandWord, opOf w = 0x08#8 → decode w = .command (.sra (aOf w) (bOf w).toInt)) ∧
  (∀ (a : Value) (k : Nat), k ≤ 127 → ∃ hi lo : Half, Answers (.sra a k) (mk hi lo) 0#128 ∧
    (mk hi lo).toInt = a.toInt / 2 ^ k ∧
    (∀ j : Nat, j < k → (mk hi lo).getLsbD (127 - j) = a.getLsbD 127) ∧
    (k = 0 → hi = high a ∧ lo = low a) ∧
    (1 ≤ k → k ≤ 63 → hi = (high a).sshiftRight k ∧ lo = (low a >>> k ||| high a <<< (64 - k))) ∧
    (64 ≤ k → hi = (high a).sshiftRight 63 ∧ lo = (high a).sshiftRight (k - 64))) ∧
  (∀ (a : Value) (k : Int) (s : State), k < 0 ∨ 127 < k → exec (.sra a k) s = .refused (.shiftAmountUndefined k)) ∧
  (∀ k : Nat, k ≤ 127 → Answers (.sra (BitVec.ofInt 128 (-1)) k) (BitVec.ofInt 128 (-1)) 0#128) ∧
  (∀ a : Value, Answers (.sra a 127) (if 0 ≤ a.toInt then 0#128 else BitVec.ofInt 128 (-1)) 0#128) ∧
  Answers (.sra int128Min 64) (mk 0xFFFFFFFFFFFFFFFF#64 0x8000000000000000#64) 0#128 ∧
  (mk 0xFFFFFFFFFFFFFFFF#64 0x8000000000000000#64).toInt = -(2 ^ 63) ∧
  Answers (.sra (BitVec.ofInt 128 (-3)) 1) (BitVec.ofInt 128 (-2)) 0#128 ∧
  decode 0x088000000000000000000000000000000000000000000000000000000000000040#264
    = .command (.sra (mk 0x8000000000000000#64 0#64) 64)

/-- R68. A shift is defined exactly when operand B is one of 0 to 127, that is `b.high = 0` and `U(b.low) <= 127`. Every
other amount is no fatal and latches nothing: the command is refused, whatever `a` holds. -/
def Obligations.ShiftAmountOutsideTheContractIsRefused : Prop :=
  ∀ (a b : Value) (s : State),
    ((0 ≤ b.toInt ∧ b.toInt ≤ 127) ↔ (high b = 0#64 ∧ (low b).toNat ≤ 127)) ∧
    ((high b = 0#64 ∧ (low b).toNat ≤ 127) →
      ∃ k : Fin 128, k.val = (low b).toNat ∧ Answers (.sll a b.toInt) (sll128 a k) 0#128 ∧
        Answers (.srl a b.toInt) (srl128 a k) 0#128 ∧ Answers (.sra a b.toInt) (sra128 a k) 0#128) ∧
    (¬(high b = 0#64 ∧ (low b).toNat ≤ 127) →
      exec (.sll a b.toInt) s = .refused (.shiftAmountUndefined b.toInt) ∧
      exec (.srl a b.toInt) s = .refused (.shiftAmountUndefined b.toInt) ∧
      exec (.sra a b.toInt) s = .refused (.shiftAmountUndefined b.toInt))

/-- The round trips and the other laws of the shifts (R70, marked as derived from the result laws). -/
def Obligations.ShiftLaws : Prop :=
  ∀ (a : Value) (j k : Fin 128),
    (a.toNat * 2 ^ k.val < 2 ^ 128 → srl128 (sll128 a k) k = a) ∧
    (-(2 ^ 127) ≤ a.toInt * 2 ^ k.val → a.toInt * 2 ^ k.val ≤ 2 ^ 127 - 1 → sra128 (sll128 a k) k = a) ∧
    (∀ h : j.val + k.val < 128,
      sll128 (sll128 a j) k = sll128 a ⟨j.val + k.val, h⟩ ∧
      srl128 (srl128 a j) k = srl128 a ⟨j.val + k.val, h⟩ ∧
      sra128 (sra128 a j) k = sra128 a ⟨j.val + k.val, h⟩) ∧
    sll128 a k = mul128 a (BitVec.ofNat 128 (2 ^ k.val))

/-! ### Division (spec/45_divide.md) -/

/-- R72, under the reading of R74: for operands with bit 127 set the results rest on the spec's decision D13 (log 1).
DIVMOD answers the floor quotient and the remainder of the patterns, in every state that performs a command as one step
(log 5), and is Fatal(DIV_ZERO) on a zero divisor in every state, before anything else. (A state that performs one
iteration a step gives the same answer: `SteppedDivisionAnswersAlike`.) -/
def Obligations.DivmodIsUnsignedFloorDivision : Prop :=
  (∀ w : CommandWord, opOf w = 0x09#8 → decode w = .command (.divmod (aOf w) (bOf w))) ∧
  (∀ (s : State) (a b : Value), b ≠ 0#128 → s.granularity = .wholeCommand → ∃ q r : Value,
    exec (.divmod a b) s = .next { s with inFlight := some ⟨s.pins.cmd, .answered ⟨q, r⟩⟩ } ∧
    (q, r) = divMod a b ∧
    q.toNat = a.toNat / b.toNat ∧ r.toNat = a.toNat % b.toNat ∧
    a.toNat = q.toNat * b.toNat + r.toNat ∧ r.toNat < b.toNat) ∧
  (∀ a : Value, IsFatal (.divmod a 0#128) .divZero 0x09#8) ∧
  divMod 10#128 3#128 = (3#128, 1#128) ∧ divMod 3#128 10#128 = (0#128, 3#128) ∧ divMod 7#128 7#128 = (1#128, 0#128) ∧
  (∀ d : Value, d ≠ 0#128 → divMod 0#128 d = (0#128, 0#128) ∧ divMod d 1#128 = (d, 0#128) ∧
    divMod d d = (1#128, 0#128)) ∧
  divMod int128Min (BitVec.ofInt 128 (-1)) = (0#128, int128Min) ∧
  decode 0x090000000000000000000000000000000A00000000000000000000000000000003#264
    = .command (.divmod 10#128 3#128)

/-- The facts R73 gives of its loop: the shift is exact and loses no bit, the working values satisfy the loop's invariant
at the start and after every iteration, no subtraction borrows and no doubling loses a bit, and the last iteration leaves
the quotient and the remainder. -/
def Obligations.DivisionLoopFacts : Prop :=
  (∀ n d : Value, d ≠ 0#128 → d.toNat < n.toNat →
    (alignShift n d).val + msb128 d = msb128 n ∧
    (sll128 d (alignShift n d)).toNat = d.toNat * 2 ^ (alignShift n d).val ∧
    (divInit n d).InLoop n d) ∧
  (∀ (n d : Value) (w : DivWork), d ≠ 0#128 → w.InLoop n d →
    (sll128 w.q 1).toNat = 2 * w.q.toNat ∧
    (w.i ≠ 0 → ∃ w' : DivWork, divIter w = .iterating w' ∧ w'.i.val + 1 = w.i.val ∧ w'.InLoop n d) ∧
    (w.i = 0 → ∃ q r : Value, divIter w = .divided q r (some ⟨srl128 w.dd 1, 0⟩) ∧ r.toNat < d.toNat ∧
      n.toNat = q.toNat * d.toNat + r.toNat)) ∧
  (∀ x y : Value, geu x y = true → (sub128 x y).toNat + y.toNat = x.toNat)

/-- What the spec infers in R75 from R73: the zero divisor is the only fatal condition of DIVMOD: with a nonzero divisor the scanner and the shifter are
used within their contracts, and SCAN_ZERO is never latched. -/
def Obligations.DivmodNeverScansZero : Prop :=
  (∀ n d : Value, d ≠ 0#128 → gtu d n = false → eq128 d n = false →
    n ≠ 0#128 ∧ d.toNat < n.toNat ∧ (alignShift n d).val = msb128 n - msb128 d ∧ msb128 n - msb128 d ≤ 127) ∧
  (∀ d : Value, d ≠ 0#128 → gtu d 0#128 = true ∧ divMod 0#128 d = (0#128, 0#128)) ∧
  (∀ (s t : State) (a b : Value), exec (.divmod a b) s = .next t →
    (b = 0#128 ∧ t.status.cause = Cause.divZero.code) ∨ (b ≠ 0#128 ∧ t.status = s.status)) ∧
  (∀ (s t : State) (f : InFlight), s.pins.rst = false → s.status.halted = false → s.inFlight = some f →
    step s = .next t → t.status = s.status)

/-- R76. The engine one iteration a step: what START, ITER and DONE do, and that with no reset meanwhile the response is
that of the division performed as one step, after `shift + 1` ITERs (`iterations`); in between nothing is on the response
port and no command is accepted; and reset discards the command. That a reset takes no response, also one on the port at
that very instant, is the model's inference (log 10); that each of START, ITER and DONE is an instant is its choice of
step (log 3, log 5). -/
def Obligations.SteppedDivisionAnswersAlike : Prop :=
  (∀ (s : State) (n d : Value), s.granularity = .perIteration → d ≠ 0#128 → ∃ g : Stage,
    exec (.divmod n d) s = .next { s with inFlight := some ⟨s.pins.cmd, g⟩ } ∧
    (gtu d n = true → g = .divided 0#128 n none) ∧
    (d = n → g = .divided 1#128 0#128 none) ∧
    (gtu n d = true → g = .iterating ⟨n, sll128 d (alignShift n d), 0#128, alignShift n d⟩)) ∧
  (∀ (s : State) (cmd : CommandWord) (w : DivWork), s.pins.rst = false → s.status.halted = false →
    s.inFlight = some ⟨cmd, .iterating w⟩ → ∃ (q r dd : Value) (g : Stage),
    step s = .next (State.tick { s with inFlight := some ⟨cmd, g⟩ }) ∧
    dd = srl128 w.dd 1 ∧
    (geu w.rem w.dd = true → r = sub128 w.rem w.dd ∧ q = sll128 w.q 1 ||| 1#128) ∧
    (geu w.rem w.dd = false → r = w.rem ∧ q = sll128 w.q 1) ∧
    (w.i = 0 → g = .divided q r (some ⟨dd, 0⟩)) ∧ (w.i ≠ 0 → g = .iterating ⟨r, dd, q, w.i - 1⟩)) ∧
  (∀ (s : State) (cmd : CommandWord) (q r : Value) (rest : Option DivRest), s.pins.rst = false →
    s.status.halted = false → s.inFlight = some ⟨cmd, .divided q r rest⟩ →
    step s = .next (State.tick { s with inFlight := some ⟨cmd, .answered ⟨q, r⟩⟩ })) ∧
  (∀ (s : State) (w : CommandWord), s.accepts w → opOf w = 0x09#8 → bOf w ≠ 0#128 →
    s.granularity = .perIteration → (∀ p ∈ s.schedule, p.rst = false) →
    (∀ k : Nat, k ≤ iterations (aOf w) (bOf w) → ∃ t : State, Sys2Proof.core.run (k + 1) s = .next t ∧
      t.respValid = false ∧ t.cmdReady = false ∧ t.busy = true ∧ t.status = s.status ∧ t.taken = s.taken) ∧
    ∃ t : State, Sys2Proof.core.run (iterations (aOf w) (bOf w) + 2) s = .next t ∧
      t.inFlight = some ⟨w, .answered ⟨(divMod (aOf w) (bOf w)).1, (divMod (aOf w) (bOf w)).2⟩⟩ ∧
      t.status = s.status ∧ t.taken = s.taken ∧ t.granularity = s.granularity) ∧
  (∀ (s : State) (f : InFlight), s.inFlight = some f → s.pins.rst = true → ∃ t : State, step s = .next t ∧
    t.inFlight = none ∧ t.taken = s.taken)

/-- R77: read as signed values: ordinary division when bit 127 is clear in both operands, and the table of results when
it is not, which is neither truncating nor flooring signed division. It rests on the spec's decision D13 (log 1). -/
def Obligations.SignedReadingOfDivision : Prop :=
  (∀ a b : Value, a.getLsbD 127 = false → b.getLsbD 127 = false → b ≠ 0#128 →
    (divMod a b).1.toInt = a.toInt / b.toInt ∧
    (divMod a b).2.toInt = a.toInt - (divMod a b).1.toInt * b.toInt ∧
    0 ≤ (divMod a b).2.toInt ∧ (divMod a b).2.toInt < b.toInt ∧
    (divMod a b).1.toInt = a.toInt.tdiv b.toInt ∧ lts a b = gtu b a ∧
    (∀ w : DivWork, w.InLoop a b → geu w.rem w.dd = !lts w.rem w.dd)) ∧
  divMod (BitVec.ofInt 128 (-10)) 3#128 = (0x55555555555555555555555555555552#128, 0#128) ∧
  divMod 10#128 (BitVec.ofInt 128 (-3)) = (0#128, 10#128) ∧
  divMod (BitVec.ofInt 128 (-10)) (BitVec.ofInt 128 (-3)) = (0#128, BitVec.ofInt 128 (-10)) ∧
  divMod (BitVec.ofInt 128 (-1)) 1#128 = (BitVec.ofInt 128 (-1), 0#128) ∧
  divMod (BitVec.ofInt 128 (-1)) (BitVec.ofInt 128 (-2)) = (1#128, 1#128) ∧
  divMod int128Min (BitVec.ofInt 128 (-1)) = (0#128, int128Min) ∧
  divMod int128Min (BitVec.ofNat 128 (10 ^ 19)) = (0x0000000000000000EC1E4A7DB69561A5#128, 0x176A81CA35780000#128) ∧
  divMod (BitVec.ofInt 128 (-1)) (BitVec.ofNat 128 (2 ^ 60)) =
    (BitVec.ofNat 128 (2 ^ 68 - 1), BitVec.ofNat 128 (2 ^ 60 - 1))

/-- The division identity (R78, marked as derived from R73), as patterns, as unsigned numbers and as signed ones. -/
def Obligations.DivisionIdentity : Prop :=
  ∀ a b : Value, b ≠ 0#128 →
    add128 (mul128 (divMod a b).1 b) (divMod a b).2 = a ∧
    (divMod a b).1.toNat * b.toNat + (divMod a b).2.toNat = a.toNat ∧
    ltu (divMod a b).2 b = true ∧
    (2 ^ 128 : Int) ∣ (divMod a b).1.toInt * b.toInt + (divMod a b).2.toInt - a.toInt ∧
    (a.getLsbD 127 = false → b.getLsbD 127 = false →
      (divMod a b).1.toInt * b.toInt + (divMod a b).2.toInt = a.toInt)

/-- The loop runs at most 128 times; 128 exactly when bit 127 of the dividend is set and the divisor is 1, and once
exactly when the operands differ and their top bits are level (R79). -/
def Obligations.DivisionTerminates : Prop :=
  ∀ a b : Value, b ≠ 0#128 →
    iterations a b ≤ 128 ∧
    (iterations a b = 128 ↔ a.getLsbD 127 = true ∧ b = 1#128) ∧
    (iterations a b = 1 ↔ msb128 a = msb128 b ∧ b.toNat < a.toNat) ∧
    (iterations a b = 0 ↔ a.toNat ≤ b.toNat) ∧
    (b.toNat < a.toNat → iterations a b = msb128 a - msb128 b + 1 ∧
      divMod a b = ((divLoop (iterations a b) (divInit a b)).q, (divLoop (iterations a b) (divInit a b)).rem))

/-! ### Fatals, STATUS, reset and the handshake (spec/10, 60, 70) -/

/-- The word STATUS is its fields: HALTED in bit 0, CAUSE in 3:1, zeros in 7:4 whatever the state, FOP in 15:8 (the
layout of R19), and `fatal` is bit 0 of it. -/
def Obligations.StatusWordLayout : Prop :=
  ∀ s : State,
    s.statusWord.getLsbD 0 = s.status.halted ∧ s.statusWord.extractLsb' 1 3 = s.status.cause ∧
    s.statusWord.extractLsb' 4 4 = 0#4 ∧ s.statusWord.extractLsb' 8 8 = s.status.fop ∧
    s.fatalPin = s.statusWord.getLsbD 0

/-- R83. The entry of a fatal, for each of the three causes: HALTED, CAUSE and FOP are written, `fatal` rises, busy
falls, there is no response, and nothing else changes. -/
def Obligations.FatalEntryWritesStatusAndNothingElse : Prop :=
  (∀ a : Value, IsFatal (.divmod a 0#128) .divZero 0x09#8) ∧
  IsFatal (.msb128 0#128) .scanZero 0x02#8 ∧
  (∀ (s : State) (w : CommandWord) (e : DecodeError), s.accepts w → decode w = .illegal e →
    step s = .next (State.tick { s with status := ⟨true, Cause.illegalCmd.code, opOf w⟩, inFlight := none })) ∧
  (∀ (s : State) (c : Cause) (op : Byte),
    (s.raiseFatal c op).status = ⟨true, c.code, op⟩ ∧
    (s.raiseFatal c op).statusWord.toNat = op.toNat * 256 + 2 * c.code.toNat + 1 ∧
    (s.raiseFatal c op).fatalPin = true ∧ (s.raiseFatal c op).busy = false ∧
    (s.raiseFatal c op).response = none ∧ (s.raiseFatal c op).respValid = false ∧
    (s.raiseFatal c op).schedule = s.schedule ∧ (s.raiseFatal c op).taken = s.taken ∧
    (s.raiseFatal c op).granularity = s.granularity ∧ (s.raiseFatal c op).instant = s.instant ∧
    ¬(s.raiseFatal c op).endedWell) ∧
  (∀ s t : State, s.status.halted = true → s.pins.rst = false → step s = .next t →
    t.status = s.status ∧ ¬t.endedWell)

/-- The causes and who raises them (the table of R81): at a step that changes STATUS otherwise than by reset, the unit
accepts a word that is DIVMOD by zero, MSB128 of zero or reserved, and STATUS holds that cause's code and the word's
`op`. So codes 4 to 7 are never produced, and no other command raises anything. -/
def Obligations.OnlyThreeCausesOfAFatal : Prop :=
  ∀ s t : State, step s = .next t → t.status ≠ s.status → s.pins.rst = false →
    s.accepts s.pins.cmd ∧ t.status.halted = true ∧ t.status.fop = opOf s.pins.cmd ∧
    ((t.status.cause = 1#3 ∧ opOf s.pins.cmd = 0x09#8 ∧ bOf s.pins.cmd = 0#128) ∨
     (t.status.cause = 2#3 ∧ opOf s.pins.cmd = 0x02#8 ∧ aOf s.pins.cmd = 0#128) ∨
     (t.status.cause = 3#3 ∧ (opOf s.pins.cmd = 0x00#8 ∨ 0x0A#8 ≤ opOf s.pins.cmd)))

/-- A halted unit accepts nothing, changes nothing of itself, and is left only by reset, which loses CAUSE and FOP (R84).
That its step is the end of an instant while the host drives anything is the model's choice (log 4). -/
def Obligations.HaltedUnitAcceptsNothingUntilReset : Prop :=
  (∀ s : State, s.status.halted = true → s.cmdReady = false) ∧
  (∀ s t : State, s.status.halted = true → s.pins.rst = false → step s = .next t →
    t.status = s.status ∧ t.inFlight = s.inFlight ∧ t.taken = s.taken) ∧
  (∀ s : State, s.status.halted = true → s.pins.rst = false → s.schedule ≠ [] → step s = .next s.tick) ∧
  (∀ s t : State, s.status.halted = true → step s = .next t → t.status.halted = false →
    s.pins.rst = true ∧ t.status.cause = 0#3 ∧ t.status.fop = 0x00#8)

/-- The model's convention (log 4): once the host has nothing more to drive, a halted unit's run ends in the fault that
names what STATUS holds; and a step faults in no other case. -/
def Obligations.HaltedRunEndsInTheFault : Prop :=
  ∀ (s : State) (f : Fault), step s = .fault f ↔
    s.status.halted = true ∧ s.schedule = [] ∧ f = .halted s.status.cause s.status.fop

/-- R86. `fatal` equals HALTED, rises only at a fatal and falls only at reset. -/
def Obligations.FatalPinFallsOnlyAtReset : Prop :=
  (∀ s : State, s.fatalPin = s.status.halted) ∧
  (∀ s t : State, step s = .next t → s.fatalPin = true → (t.fatalPin = false ↔ s.pins.rst = true)) ∧
  (∀ s t : State, step s = .next t → s.fatalPin = false → t.fatalPin = true →
    s.accepts s.pins.cmd ∧ ∃ c : Cause, transact s.pins.cmd = .fatal c ∧ t.status = ⟨true, c.code, opOf s.pins.cmd⟩)

/-- R89. Every command but DIVMOD and MSB128 answers on every operand, a shift with a legal amount; nothing but the
answer changes. -/
def Obligations.SilentArithmeticIsTotal : Prop :=
  ∀ (x : Limb) (a b : Value) (k : Int), 0 ≤ k → k ≤ 127 →
    ∀ i ∈ [Instr.clz32 x, .add a b, .sub a b, .mul a b, .sll a k, .srl a k, .sra a k],
      ∃ y : Value, Answers i y 0#128

/-- Reset: while `rst` is asserted nothing is accepted and no response is on the port; the unit goes to the reset state
from any state, a command in flight or a halt included; released, it is ready (R90). That `rst` overrides everything else
at its instant, so that a response in flight then is not taken even with `resp_ready` 1, is the model's inference
(log 10); the record `taken` is its own (log 8). -/
def Obligations.ResetOverridesEverything : Prop :=
  ∀ s : State, s.pins.rst = true →
    s.cmdReady = false ∧ s.respValid = false ∧
    step s = .next { s with
      status := ⟨false, 0#3, 0x00#8⟩, inFlight := none, schedule := s.schedule.tail, instant := s.instant + 1 } ∧
    ∀ t : State, step s = .next t → t.status = State.reset.status ∧ t.inFlight = State.reset.inFlight ∧
      t.statusWord = 0x0000#16 ∧ t.fatalPin = false ∧ t.busy = false ∧ t.respValid = false ∧ t.taken = s.taken ∧
      (t.pins.rst = false → t.cmdReady = true)

/-- The state after reset has STATUS zero, nothing in flight and no response pending, and is ready for a command
(R91). -/
def Obligations.ResetStateIsIdle : Prop :=
  State.reset.statusWord = 0x0000#16 ∧ State.reset.status.halted = false ∧ State.reset.status.cause = 0#3 ∧
  State.reset.status.fop = 0x00#8 ∧ State.reset.fatalPin = false ∧ State.reset.busy = false ∧
  State.reset.inFlight = none ∧ State.reset.respValid = false ∧ State.reset.cmdReady = true

/-- The handshake: `cmd_ready`; acceptance when valid and ready; a response held stable until taken (or until `rst` is
asserted, R90); busy falling when it is taken (R94). That no command is accepted at the instant a response is taken is the
model's inference (log 9); that a step is an instant, and the record `taken`, are its own (log 3, log 8). -/
def Obligations.HandshakeOfThePorts : Prop :=
  (∀ s : State, s.cmdReady = true ↔ s.pins.rst = false ∧ s.status.halted = false ∧ s.busy = false) ∧
  (∀ s : State, s.cmdReady = true → s.pins.cmdValid = true → step s = endInstant s.accept) ∧
  (∀ s : State, s.cmdReady = true → s.pins.cmdValid = false → step s = .next s.tick) ∧
  (∀ (s : State) (cmd : CommandWord) (r : Response), s.pins.rst = false → s.status.halted = false →
    s.inFlight = some ⟨cmd, .answered r⟩ →
    s.respValid = true ∧ s.respPins = r.y ++ r.z ∧
    (s.pins.respReady = false → step s = .next s.tick ∧ s.tick.inFlight = s.inFlight ∧
      (s.tick.pins.rst = false → s.tick.respValid = true ∧ s.tick.respPins = s.respPins)) ∧
    (s.pins.respReady = true → step s = .next { s with
      inFlight := none, taken := s.taken ++ [r], schedule := s.schedule.tail, instant := s.instant + 1 }))

/-- A response is taken exactly at an instant with `resp_valid` and `resp_ready` 1, and a command is accepted at none
with `cmd_ready` or `cmd_valid` 0: the command in flight afterwards was in flight before, and STATUS is as it was unless
`rst` cleared it (R94). In the states a run reaches, a halted unit has nothing in flight (`StepKeepsTheInvariant`). The
record `taken` is the model's own (log 8), and that `rst` decides its instant its inference (log 10). -/
def Obligations.TransfersHappenWhenValidAndReady : Prop :=
  ∀ s t : State, (s.status.halted = true → s.inFlight = none) → step s = .next t →
    t.taken = s.taken ++ (if s.respValid = true ∧ s.pins.respReady = true then s.response.toList else []) ∧
    ((s.cmdReady = false ∨ s.pins.cmdValid = false) →
      (∀ f : InFlight, t.inFlight = some f → ∃ g : Stage, s.inFlight = some ⟨f.cmd, g⟩) ∧
      (t.status = s.status ∨ (s.pins.rst = true ∧ t.status = ⟨false, 0#3, 0x00#8⟩)))

/-- What `exec` leaves alone, for every command: the host's side, the model's own fields, and STATUS unless the command
is DIVMOD by zero or MSB128 of zero; and what it does to the in-flight record. No memory and no register exists. -/
def Obligations.ExecFrame : Prop :=
  ∀ (i : Instr) (s t : State), exec i s = .next t →
    t.schedule = s.schedule ∧ t.taken = s.taken ∧ t.granularity = s.granularity ∧ t.instant = s.instant ∧
    (i ≠ .msb128 0#128 → (∀ a : Value, i ≠ .divmod a 0#128) →
      t.status = s.status ∧ ∃ g : Stage, t.inFlight = some ⟨s.pins.cmd, g⟩) ∧
    (i = .msb128 0#128 → t.inFlight = none ∧ t.status = ⟨true, 2#3, 0x02#8⟩) ∧
    (∀ a : Value, i = .divmod a 0#128 → t.inFlight = none ∧ t.status = ⟨true, 1#3, 0x09#8⟩) ∧
    ((∀ a b : Value, i ≠ .divmod a b) → i ≠ .msb128 0#128 →
      ∃ y : Value, t.inFlight = some ⟨s.pins.cmd, .answered ⟨y, 0#128⟩⟩)

/-- The host cannot see the divider's working values: two states that differ only in how far the division in flight has
come, short of its response, have the same pins (R20). -/
def Obligations.DividerIsHidden : Prop :=
  ∀ (s : State) (cmd : CommandWord) (g g' : Stage), (∀ r : Response, g ≠ .answered r ∧ g' ≠ .answered r) →
    State.statusWord { s with inFlight := some ⟨cmd, g⟩ } = State.statusWord { s with inFlight := some ⟨cmd, g'⟩ } ∧
    State.respValid { s with inFlight := some ⟨cmd, g⟩ } = State.respValid { s with inFlight := some ⟨cmd, g'⟩ } ∧
    State.respPins { s with inFlight := some ⟨cmd, g⟩ } = State.respPins { s with inFlight := some ⟨cmd, g'⟩ } ∧
    State.cmdReady { s with inFlight := some ⟨cmd, g⟩ } = State.cmdReady { s with inFlight := some ⟨cmd, g'⟩ } ∧
    State.fatalPin { s with inFlight := some ⟨cmd, g⟩ } = State.fatalPin { s with inFlight := some ⟨cmd, g'⟩ }

/-! ### The whole machine -/

/-- A step of a unit that is ready and presented with a word that decodes runs that command and ends the instant (log 3);
and a word placed by `withFetchWord` is the one the very next step runs. The last holds in every state because the hook,
the model's own (log 11), clears a halt and drops a command in flight. -/
def Obligations.StepRunsTheDecodedCommand : Prop :=
  (∀ (s : State) (w : CommandWord) (i : Instr), s.accepts w → decode w = .command i →
    step s = endInstant (exec i s)) ∧
  (∀ (s t : State) (w : CommandWord) (i : Instr), s.accepts w → decode w = .command i → exec i s = .next t →
    step s = .next { t with schedule := s.schedule.tail, instant := s.instant + 1 }) ∧
  (∀ (s : State) (w : CommandWord), (s.withFetchWord 264 w.toNat).accepts w)

/-- STATUS is read-only but for fatals and reset, and legal; a halted unit has nothing in flight; a stepped division is
in its loop, and a response on the port is the answer of the command in flight: every step keeps it. -/
def Obligations.StepKeepsTheInvariant : Prop :=
  ∀ s t : State, s.Inv → step s = .next t → t.Inv

/-- The invariant holds after reset. -/
def Obligations.ResetHasTheInvariant : Prop := State.reset.Inv

/-- R23. Purity: two units that are ready, of the same granularity (log 5) and presented with the same word, agree on the
outcome whatever else differs; and a command in flight goes on alike whatever the host does, short of reset. -/
def Obligations.OutcomeDependsOnTheCommandWordAlone : Prop :=
  (∀ (s₁ s₂ : State) (w : CommandWord), s₁.accepts w → s₂.accepts w → s₁.granularity = s₂.granularity →
    (∃ r : Refusal, step s₁ = .refused r ∧ step s₂ = .refused r) ∨
    (∃ t₁ t₂ : State, step s₁ = .next t₁ ∧ step s₂ = .next t₂ ∧ t₁.inFlight = t₂.inFlight ∧
      ((t₁.status = s₁.status ∧ t₂.status = s₂.status ∧ t₁.inFlight ≠ none) ∨
       (t₁.status = t₂.status ∧ t₁.status.halted = true ∧ t₁.inFlight = none)))) ∧
  (∀ (s₁ s₂ : State) (f : InFlight), s₁.inFlight = some f → s₂.inFlight = some f →
    s₁.status.halted = false → s₂.status.halted = false → s₁.pins.rst = false → s₂.pins.rst = false →
    (∀ r : Response, f.stage ≠ .answered r) →
    ∃ t₁ t₂ : State, step s₁ = .next t₁ ∧ step s₂ = .next t₂ ∧ t₁.inFlight = t₂.inFlight ∧
      t₁.status = s₁.status ∧ t₂.status = s₂.status)

/-- R6. The machine performs the abstract unit: a unit that is ready and performs commands as one step (log 5) answers a word
with the response of the rules' result laws, or takes the fatal, or is refused the undefined, exactly as the abstract
unit's `exec(cmd)` says. -/
def Obligations.MachinePerformsTheAbstractUnit : Prop :=
  ∀ (s : State) (w : CommandWord), s.accepts w → s.granularity = .wholeCommand →
    match transact w with
    | .respond r => step s = .next (State.tick { s with inFlight := some ⟨w, .answered r⟩ })
    | .fatal c => step s = .next (State.tick { s with status := ⟨true, c.code, opOf w⟩, inFlight := none })
    | .undefined k => step s = .refused (.shiftAmountUndefined k)

/-- A run of the machine under a host that issues commands one at a time and takes each response is the run of the
abstract unit: the k-th response is that of the k-th command, nothing after a fatal is accepted, and the run ends well,
in the fault, or with no meaning as R96 says (R35, R96). The schedule and the instants are the model's (log 3), that a command takes two
of them too (log 9), and when the fault shows (log 4). -/
def Obligations.RunsAreRunsOfTheAbstractUnit : Prop :=
  ∀ (s : State) (ws : List CommandWord), s.endedWell → s.granularity = .wholeCommand →
    s.schedule = obedientSchedule ws →
    match abstractRun ws with
    | .endsWell rs => ∃ t : State, Sys2Proof.core.run (2 * ws.length) s = .next t ∧ t.endedWell ∧
        t.taken = s.taken ++ rs ∧ rs.length = ws.length ∧ t.status = s.status
    | .endsInFault rs c op => ∃ t : State, Sys2Proof.core.run (2 * ws.length) s = .next t ∧
        t.taken = s.taken ++ rs ∧ rs.length < ws.length ∧ t.status = ⟨true, c.code, op⟩ ∧
        Sys2Proof.core.run (2 * ws.length + 1) s = .fault (.halted c.code op)
    | .noMeaning rs k => rs.length < ws.length ∧
        Sys2Proof.core.run (2 * ws.length) s = .refused (.shiftAmountUndefined k)

/-- A host script is a run over the words its lines assemble to, its operands `%n.y` and `%n.z` being the responses of
earlier lines (R49). It ends well exactly when every line was formed, accepted and answered; after a fatal or an undefined
command no further line is formed (R96); and it stops at a line that is no line (log 17). -/
def Obligations.ScriptsAreRunsOverTheirWords : Prop :=
  ∀ ls : List Line, ∃ ws : List CommandWord, ws.length ≤ ls.length ∧
    (∀ (k : Nat) (w : CommandWord), ws[k]? = some w → ∃ (l : Line) (rs : List Response) (i : Instr),
      ls[k]? = some l ∧ abstractRun (ws.take k) = .endsWell rs ∧ rs.length = k ∧ l.assemble rs = some i ∧
        w = encode i) ∧
    match runScript ls [] with
    | .ran (.endsWell rs) => abstractRun ws = .endsWell rs ∧ ws.length = ls.length ∧ rs.length = ls.length
    | .ran (.endsInFault rs c op) => abstractRun ws = .endsInFault rs c op ∧ ws.length = rs.length + 1
    | .ran (.noMeaning rs k) => abstractRun ws = .noMeaning rs k ∧ ws.length = rs.length + 1
    | .badLine rs => abstractRun ws = .endsWell rs ∧ ws.length = rs.length ∧
        ∃ l : Line, ls[rs.length]? = some l ∧ l.assemble rs = none
end

