-- ==== Sys2Proof/Laws/Words.lean ====
section
/-! SUPPORT. What each operation on words computes, as numbers: halves, limbs, fields, the 64-bit datapath, comparators
and amounts. Proofs about results cite these and do not unfold the operations. -/

namespace Sys2Proof.Machine

/-! Halves and limbs. -/

theorem toNat_high (x : Value) : (high x).toNat = x.toNat / 2 ^ 64 := by
  have := x.isLt
  simp only [high, BitVec.extractLsb'_toNat, Nat.shiftRight_eq_div_pow]
  omega

theorem toNat_low (x : Value) : (low x).toNat = x.toNat % 2 ^ 64 := by
  simp [low, BitVec.extractLsb'_toNat]

theorem toNat_mk (h l : Half) : (mk h l).toNat = h.toNat * 2 ^ 64 + l.toNat := by
  have := l.isLt
  rw [mk, BitVec.toNat_append, ← Nat.shiftLeft_add_eq_or_of_lt this, Nat.shiftLeft_eq]

theorem toNat_eq_halves (x : Value) : x.toNat = (high x).toNat * 2 ^ 64 + (low x).toNat := by
  rw [toNat_high, toNat_low]; omega

@[simp] theorem high_mk (h l : Half) : high (mk h l) = h := by
  apply BitVec.eq_of_toNat_eq
  have := l.isLt
  rw [toNat_high, toNat_mk]; omega

@[simp] theorem low_mk (h l : Half) : low (mk h l) = l := by
  apply BitVec.eq_of_toNat_eq
  have := l.isLt
  rw [toNat_low, toNat_mk]; omega

@[simp] theorem mk_high_low (x : Value) : mk (high x) (low x) = x := by
  apply BitVec.eq_of_toNat_eq
  rw [toNat_mk, ← toNat_eq_halves]

theorem toNat_upperLimb (p : Half) : (upperLimb p).toNat = p.toNat / 2 ^ 32 := by
  have := p.isLt
  simp only [upperLimb, BitVec.extractLsb'_toNat, Nat.shiftRight_eq_div_pow]
  omega

theorem toNat_lowerLimb (p : Half) : (lowerLimb p).toNat = p.toNat % 2 ^ 32 := by
  simp [lowerLimb, BitVec.extractLsb'_toNat]

theorem toNat_limb (x : Value) (i : Nat) : (limb x i).toNat = x.toNat / 2 ^ (32 * i) % 2 ^ 32 := by
  simp [limb, BitVec.extractLsb'_toNat, Nat.shiftRight_eq_div_pow]

/-! The fields of a command word. -/

theorem toNat_commandWord (op : Byte) (a b : Value) :
    (commandWord op a b).toNat = op.toNat * 2 ^ 256 + a.toNat * 2 ^ 128 + b.toNat := by
  have ha := a.isLt
  have hb := b.isLt
  have h1 : (a ++ b).toNat = a.toNat * 2 ^ 128 + b.toNat := by
    rw [BitVec.toNat_append, ← Nat.shiftLeft_add_eq_or_of_lt hb, Nat.shiftLeft_eq]
  have h2 : (a ++ b).toNat < 2 ^ 256 := by rw [h1]; omega
  have h3 : (op ++ (a ++ b)).toNat = op.toNat * 2 ^ 256 + (a ++ b).toNat := by
    rw [BitVec.toNat_append, ← Nat.shiftLeft_add_eq_or_of_lt h2, Nat.shiftLeft_eq]
  rw [commandWord, h3, h1]; omega

@[simp] theorem opOf_commandWord (op : Byte) (a b : Value) : opOf (commandWord op a b) = op := by
  apply BitVec.eq_of_toNat_eq
  have := a.isLt
  have := b.isLt
  have := op.isLt
  simp only [opOf, BitVec.extractLsb'_toNat, Nat.shiftRight_eq_div_pow, toNat_commandWord]
  omega

@[simp] theorem aOf_commandWord (op : Byte) (a b : Value) : aOf (commandWord op a b) = a := by
  apply BitVec.eq_of_toNat_eq
  have := a.isLt
  have := b.isLt
  simp only [aOf, BitVec.extractLsb'_toNat, Nat.shiftRight_eq_div_pow, toNat_commandWord]
  omega

@[simp] theorem bOf_commandWord (op : Byte) (a b : Value) : bOf (commandWord op a b) = b := by
  apply BitVec.eq_of_toNat_eq
  have := b.isLt
  simp only [bOf, BitVec.extractLsb'_toNat, Nat.shiftRight_eq_div_pow, toNat_commandWord]
  omega

theorem commandWord_fields (w : CommandWord) : commandWord (opOf w) (aOf w) (bOf w) = w := by
  apply BitVec.eq_of_toNat_eq
  have := w.isLt
  simp only [toNat_commandWord, opOf, aOf, bOf, BitVec.extractLsb'_toNat, Nat.shiftRight_eq_div_pow]
  omega

/-! Serial transfer. -/

theorem toNat_byteOf {m : Nat} (w : BitVec m) (k : Nat) : (byteOf w k).toNat = w.toNat / 2 ^ (8 * k) % 2 ^ 8 := by
  simp [byteOf, BitVec.extractLsb'_toNat, Nat.shiftRight_eq_div_pow]

@[simp] theorem length_serialBytes {m : Nat} (w : BitVec m) (n : Nat) : (serialBytes w n).length = n := by
  simp [serialBytes]

/-! The 64-bit datapath (spec/00_scope.md section 6). -/

theorem add64_spec (p q : Half) (c : Bool) :
    (add64 p q c).2.toNat * 2 ^ 64 + (add64 p q c).1.toNat = p.toNat + q.toNat + c.toNat := by
  have := p.isLt
  have := q.isLt
  have := Bool.toNat_lt c
  by_cases h : 2 ^ 64 ≤ p.toNat + q.toNat + c.toNat
  · simp only [add64, h, decide_true, Bool.toNat_true, BitVec.toNat_ofNat]; omega
  · simp only [add64, h, decide_false, Bool.toNat_false, BitVec.toNat_ofNat]; omega

theorem sub64_spec (p q : Half) (c : Bool) :
    ((sub64 p q c).1.toNat : Int) - (sub64 p q c).2.toNat * 2 ^ 64 = (p.toNat : Int) - q.toNat - c.toNat := by
  have := p.isLt
  have := q.isLt
  have := Bool.toNat_lt c
  by_cases h : p.toNat < q.toNat + c.toNat
  · simp only [sub64, h, decide_true, Bool.toNat_true, BitVec.toNat_ofInt]; omega
  · simp only [sub64, h, decide_false, Bool.toNat_false, BitVec.toNat_ofInt]; omega

theorem toNat_shl64 (p : Half) (k : Fin 64) : (shl64 p k).toNat = p.toNat * 2 ^ k.val % 2 ^ 64 := by
  simp [shl64]

theorem toNat_shr64 (p : Half) (k : Fin 64) : (shr64 p k).toNat = p.toNat / 2 ^ k.val := by
  rw [shr64, BitVec.toNat_ofNat]
  exact Nat.mod_eq_of_lt (lt_of_le_of_lt (Nat.div_le_self _ _) p.isLt)

theorem toNat_mul32 (p q : Limb) : (mul32 p q).toNat = p.toNat * q.toNat := by
  have hp : p.toNat ≤ 2 ^ 32 - 1 := by have := p.isLt; omega
  have hq : q.toNat ≤ 2 ^ 32 - 1 := by have := q.isLt; omega
  have : p.toNat * q.toNat ≤ (2 ^ 32 - 1) * (2 ^ 32 - 1) := Nat.mul_le_mul hp hq
  simp only [mul32, BitVec.toNat_ofNat]
  omega

/-! Comparators. -/

theorem ltu_iff (x y : Value) : ltu x y = true ↔ x.toNat < y.toNat := by simp [ltu]
theorem gtu_iff (x y : Value) : gtu x y = true ↔ y.toNat < x.toNat := by simp [gtu, ltu]
theorem geu_iff (x y : Value) : geu x y = true ↔ y.toNat ≤ x.toNat := by simp [geu, ltu]
theorem lts_iff (x y : Value) : lts x y = true ↔ x.toInt < y.toInt := by simp [lts]
theorem eq128_iff (x y : Value) : eq128 x y = true ↔ x = y := by simp [eq128]

/-! Amounts. -/

theorem legalAmount_of_fin (k : Fin 128) : legalAmount (k.val : Int) = some k := by
  have := k.isLt
  rw [legalAmount, dif_pos ⟨by omega, by omega⟩]
  simp

theorem legalAmount_eq_some {k : Int} {n : Fin 128} : legalAmount k = some n ↔ k = n.val := by
  constructor
  · intro h
    rw [legalAmount] at h
    split at h
    · simp only [Option.some.injEq] at h
      subst h
      simp only
      omega
    · simp at h
  · rintro rfl
    exact legalAmount_of_fin n

theorem legalAmount_eq_none {k : Int} : legalAmount k = none ↔ k < 0 ∨ 127 < k := by
  rw [legalAmount]
  split <;> simp <;> omega

end Sys2Proof.Machine
end

