-- ==== Sys2Proof/Laws/PerInstr.lean ====
section
/-! SUPPORT. Per-command facts about the encoding, one lemma for each constructor. -/

namespace Sys2Proof.Laws.FieldsOfEncoding

open Sys2Proof.Machine

/-- The encoding of a command carries its opcode and its two operand fields where R40 places them. -/
def Statement (i : Instr) : Prop :=
  opOf (encode i) = i.mnemonic.opcode ∧ aOf (encode i) = i.fieldA ∧ bOf (encode i) = i.fieldB

theorem of_encode (i : Instr) : Statement i :=
  ⟨opOf_commandWord _ _ _, aOf_commandWord _ _ _, bOf_commandWord _ _ _⟩

theorem clz32 (x : Limb) : Statement (.clz32 x) := of_encode _
theorem msb128 (a : Value) : Statement (.msb128 a) := of_encode _
theorem add (a b : Value) : Statement (.add a b) := of_encode _
theorem sub (a b : Value) : Statement (.sub a b) := of_encode _
theorem mul (a b : Value) : Statement (.mul a b) := of_encode _
theorem sll (a : Value) (k : Int) : Statement (.sll a k) := of_encode _
theorem srl (a : Value) (k : Int) : Statement (.srl a k) := of_encode _
theorem sra (a : Value) (k : Int) : Statement (.sra a k) := of_encode _
theorem divmod (a b : Value) : Statement (.divmod a b) := of_encode _

end Sys2Proof.Laws.FieldsOfEncoding
end

