-- ==== Sys2Proof/Laws/State.lean ====
section
/-! SUPPORT. One lemma for each field of the state under each named update, so that no later proof unfolds a record
update. -/

namespace Sys2Proof.Machine

variable (s : State)

/-! `tick`. -/

@[simp] theorem State.tick_status : (s.tick).status = s.status := rfl
@[simp] theorem State.tick_inFlight : (s.tick).inFlight = s.inFlight := rfl
@[simp] theorem State.tick_schedule : (s.tick).schedule = s.schedule.tail := rfl
@[simp] theorem State.tick_taken : (s.tick).taken = s.taken := rfl
@[simp] theorem State.tick_granularity : (s.tick).granularity = s.granularity := rfl
@[simp] theorem State.tick_instant : (s.tick).instant = s.instant + 1 := rfl

/-! `respond`. -/

@[simp] theorem State.respond_status (y z : Value) : (s.respond y z).status = s.status := rfl
@[simp] theorem State.respond_inFlight (y z : Value) : (s.respond y z).inFlight = some ⟨s.pins.cmd, .answered ⟨y, z⟩⟩ := rfl
@[simp] theorem State.respond_schedule (y z : Value) : (s.respond y z).schedule = s.schedule := rfl
@[simp] theorem State.respond_taken (y z : Value) : (s.respond y z).taken = s.taken := rfl
@[simp] theorem State.respond_granularity (y z : Value) : (s.respond y z).granularity = s.granularity := rfl
@[simp] theorem State.respond_instant (y z : Value) : (s.respond y z).instant = s.instant := rfl

/-! `enterDivision`. -/

@[simp] theorem State.enterDivision_status (g : Stage) : (s.enterDivision g).status = s.status := rfl
@[simp] theorem State.enterDivision_inFlight (g : Stage) : (s.enterDivision g).inFlight = some ⟨s.pins.cmd, g⟩ := rfl
@[simp] theorem State.enterDivision_schedule (g : Stage) : (s.enterDivision g).schedule = s.schedule := rfl
@[simp] theorem State.enterDivision_taken (g : Stage) : (s.enterDivision g).taken = s.taken := rfl
@[simp] theorem State.enterDivision_granularity (g : Stage) : (s.enterDivision g).granularity = s.granularity := rfl
@[simp] theorem State.enterDivision_instant (g : Stage) : (s.enterDivision g).instant = s.instant := rfl

/-! `raiseFatal`. -/

@[simp] theorem State.raiseFatal_status (c : Cause) (op : Byte) : (s.raiseFatal c op).status = ⟨true, c.code, op⟩ := rfl
@[simp] theorem State.raiseFatal_inFlight (c : Cause) (op : Byte) : (s.raiseFatal c op).inFlight = none := rfl
@[simp] theorem State.raiseFatal_schedule (c : Cause) (op : Byte) : (s.raiseFatal c op).schedule = s.schedule := rfl
@[simp] theorem State.raiseFatal_taken (c : Cause) (op : Byte) : (s.raiseFatal c op).taken = s.taken := rfl
@[simp] theorem State.raiseFatal_granularity (c : Cause) (op : Byte) : (s.raiseFatal c op).granularity = s.granularity := rfl
@[simp] theorem State.raiseFatal_instant (c : Cause) (op : Byte) : (s.raiseFatal c op).instant = s.instant := rfl

/-! `applyReset`. -/

@[simp] theorem State.applyReset_status : (s.applyReset).status = Status.clear := rfl
@[simp] theorem State.applyReset_inFlight : (s.applyReset).inFlight = none := rfl
@[simp] theorem State.applyReset_schedule : (s.applyReset).schedule = s.schedule := rfl
@[simp] theorem State.applyReset_taken : (s.applyReset).taken = s.taken := rfl
@[simp] theorem State.applyReset_granularity : (s.applyReset).granularity = s.granularity := rfl
@[simp] theorem State.applyReset_instant : (s.applyReset).instant = s.instant := rfl

/-! `takeResponse`. -/

@[simp] theorem State.takeResponse_status (r : Response) : (s.takeResponse r).status = s.status := rfl
@[simp] theorem State.takeResponse_inFlight (r : Response) : (s.takeResponse r).inFlight = none := rfl
@[simp] theorem State.takeResponse_schedule (r : Response) : (s.takeResponse r).schedule = s.schedule := rfl
@[simp] theorem State.takeResponse_taken (r : Response) : (s.takeResponse r).taken = s.taken ++ [r] := rfl
@[simp] theorem State.takeResponse_granularity (r : Response) : (s.takeResponse r).granularity = s.granularity := rfl
@[simp] theorem State.takeResponse_instant (r : Response) : (s.takeResponse r).instant = s.instant := rfl

/-! `presents`. -/

@[simp] theorem State.presents_status (w : CommandWord) : (s.presents w).status = if s.status.halted then Status.clear else s.status := rfl
@[simp] theorem State.presents_inFlight (w : CommandWord) : (s.presents w).inFlight = none := rfl
@[simp] theorem State.presents_schedule (w : CommandWord) : (s.presents w).schedule = HostPins.present w :: s.schedule.tail := rfl
@[simp] theorem State.presents_taken (w : CommandWord) : (s.presents w).taken = s.taken := rfl
@[simp] theorem State.presents_granularity (w : CommandWord) : (s.presents w).granularity = s.granularity := rfl
@[simp] theorem State.presents_instant (w : CommandWord) : (s.presents w).instant = s.instant := rfl

/-! The pins under updates that leave the host's side alone. -/

@[simp] theorem State.respond_pins (y z : Value) : (s.respond y z).pins = s.pins := rfl
@[simp] theorem State.enterDivision_pins (g : Stage) : (s.enterDivision g).pins = s.pins := rfl
@[simp] theorem State.raiseFatal_pins (c : Cause) (op : Byte) : (s.raiseFatal c op).pins = s.pins := rfl
@[simp] theorem State.applyReset_pins : s.applyReset.pins = s.pins := rfl
@[simp] theorem State.takeResponse_pins (r : Response) : (s.takeResponse r).pins = s.pins := rfl
@[simp] theorem State.presents_pins (w : CommandWord) : (s.presents w).pins = HostPins.present w := rfl

/-! The state after reset. -/

@[simp] theorem State.reset_status : State.reset.status = Status.clear := rfl
@[simp] theorem State.reset_inFlight : State.reset.inFlight = none := rfl
@[simp] theorem State.reset_schedule : State.reset.schedule = [] := rfl
@[simp] theorem State.reset_taken : State.reset.taken = [] := rfl
@[simp] theorem State.reset_granularity : State.reset.granularity = .wholeCommand := rfl
@[simp] theorem State.reset_pins : State.reset.pins = HostPins.idle := rfl

/-! The views. -/

@[simp] theorem State.fatalPin_eq : s.fatalPin = s.status.halted := rfl
@[simp] theorem State.busy_eq : s.busy = s.inFlight.isSome := rfl
theorem State.respValid_eq : s.respValid = s.response.isSome := rfl
theorem State.response_of_rst (h : s.pins.rst = true) : s.response = none := by simp [State.response, h]
theorem State.response_of_none (h : s.inFlight = none) : s.response = none := by simp [State.response, h]
theorem State.response_eq_some_iff (r : Response) :
    s.response = some r ↔ s.pins.rst = false ∧ ∃ cmd : CommandWord, s.inFlight = some ⟨cmd, .answered r⟩ := by
  cases hr : s.pins.rst
  · rcases hf : s.inFlight with _ | ⟨cmd, g⟩
    · simp [State.response, hr, hf]
    · cases g <;> simp [State.response, hr, hf]
  · simp [State.response, hr]
theorem State.divider_of_iterating {cmd : CommandWord} {w : DivWork} (h : s.inFlight = some ⟨cmd, .iterating w⟩) :
    s.divider = w := by simp [State.divider, h]
theorem State.divider_of_divided {cmd : CommandWord} {q r : Value} {l : DivRest}
    (h : s.inFlight = some ⟨cmd, .divided q r (some l)⟩) : s.divider = ⟨r, l.dd, q, l.i⟩ := by
  simp [State.divider, h]
theorem State.cmdReady_iff :
    s.cmdReady = true ↔ s.pins.rst = false ∧ s.status.halted = false ∧ s.inFlight = none := by
  cases h : s.inFlight <;> simp [State.cmdReady, h]

/-! The outcomes of a step whose instant ends. -/

@[simp] theorem endInstant_next : endInstant (.next s) = .next s.tick := rfl
@[simp] theorem endInstant_fault (f : Fault) : endInstant (.fault f) = .fault f := rfl
@[simp] theorem endInstant_refused (r : Refusal) : endInstant (.refused r) = .refused r := rfl

theorem endInstant_eq_next {o : Host.Outcome State Fault Refusal} {t : State} (h : endInstant o = .next t) :
    ∃ u : State, o = .next u ∧ t = u.tick := by
  cases o with
  | next u => exact ⟨u, rfl, by simpa [endInstant] using h.symm⟩
  | fault f => simp [endInstant] at h
  | refused r => simp [endInstant] at h

end Sys2Proof.Machine
end

