-- ==== Sys2Proof/Laws/Step.lean ====
section
/-! SUPPORT. Everything `exec`, the command in flight and `step` can do, said once: inversion lemmas that later proofs
cite instead of unfolding the machine. -/

namespace Sys2Proof.Machine

/-- A next state of `exec` is an answer, a fatal of DIVMOD or MSB128, or a division entered. -/
theorem exec_cases {i : Instr} {s t : State} (h : exec i s = .next t) :
    (∃ y z : Value, t = s.respond y z) ∨
    (i = .msb128 0#128 ∧ t = s.raiseFatal .scanZero Mnemonic.msb128.opcode) ∨
    (∃ a : Value, i = .divmod a 0#128 ∧ t = s.raiseFatal .divZero Mnemonic.divmod.opcode) ∨
    (∃ a b : Value, i = .divmod a b ∧ b ≠ 0#128 ∧ s.granularity = .perIteration ∧
      t = s.enterDivision (divStart a b)) := by
  cases i with
  | clz32 x => exact .inl ⟨_, _, (by simpa [exec, execClz32] using h.symm)⟩
  | msb128 a =>
    simp only [exec, execMsb128] at h
    split at h
    · next ha => subst ha; exact .inr (.inl ⟨rfl, by simpa using h.symm⟩)
    · exact .inl ⟨_, _, (by simpa using h.symm)⟩
  | add a b => exact .inl ⟨_, _, (by simpa [exec, execAdd] using h.symm)⟩
  | sub a b => exact .inl ⟨_, _, (by simpa [exec, execSub] using h.symm)⟩
  | mul a b => exact .inl ⟨_, _, (by simpa [exec, execMul] using h.symm)⟩
  | sll a k =>
    simp only [exec, execSll] at h
    split at h
    · exact .inl ⟨_, _, (by simpa using h.symm)⟩
    · simp at h
  | srl a k =>
    simp only [exec, execSrl] at h
    split at h
    · exact .inl ⟨_, _, (by simpa using h.symm)⟩
    · simp at h
  | sra a k =>
    simp only [exec, execSra] at h
    split at h
    · exact .inl ⟨_, _, (by simpa using h.symm)⟩
    · simp at h
  | divmod a b =>
    simp only [exec, execDivmod] at h
    split at h
    · next hb => subst hb; exact .inr (.inr (.inl ⟨a, rfl, by simpa using h.symm⟩))
    · next hb =>
      split at h
      · exact .inl ⟨_, _, (by simpa using h.symm)⟩
      · next hg => exact .inr (.inr (.inr ⟨a, b, rfl, hb, hg, by simpa using h.symm⟩))

/-- `exec` never faults. -/
theorem exec_no_fault (i : Instr) (s : State) (f : Fault) : exec i s ≠ .fault f := by
  cases i <;> simp only [exec, execClz32, execMsb128, execAdd, execSub, execMul, execSll, execSrl, execSra, execDivmod]
    <;> (repeat' split) <;> simp

/-- What becomes of the command in flight in an instant. -/
theorem serve_cases (s : State) (f : InFlight) :
    (∃ w : DivWork, f.stage = .iterating w ∧ s.serve f = { s with inFlight := some ⟨f.cmd, divIter w⟩ }) ∨
    (∃ (q r : Value) (l : Option DivRest), f.stage = .divided q r l ∧
      s.serve f = { s with inFlight := some ⟨f.cmd, .answered ⟨q, r⟩⟩ }) ∨
    (∃ r : Response, f.stage = .answered r ∧ s.pins.respReady = true ∧ s.serve f = s.takeResponse r) ∨
    (∃ r : Response, f.stage = .answered r ∧ s.pins.respReady = false ∧ s.serve f = s) := by
  obtain ⟨cmd, g⟩ := f
  cases g with
  | iterating w => exact .inl ⟨w, rfl, rfl⟩
  | divided q r l => exact .inr (.inl ⟨q, r, l, rfl, rfl⟩)
  | answered r =>
    cases h : s.pins.respReady
    · exact .inr (.inr (.inr ⟨r, rfl, rfl, by simp [State.serve, h]⟩))
    · exact .inr (.inr (.inl ⟨r, rfl, rfl, by simp [State.serve, h]⟩))

theorem step_of_rst {s : State} (h : s.pins.rst = true) : step s = .next s.applyReset.tick := by
  simp [step, unitInstant, h]

theorem step_of_halted {s : State} (h : s.pins.rst = false) (hh : s.status.halted = true) :
    step s = s.remainHalted := by
  simp [step, unitInstant, h, hh]

theorem step_of_inFlight {s : State} {f : InFlight} (h : s.pins.rst = false) (hh : s.status.halted = false)
    (hf : s.inFlight = some f) : step s = .next (s.serve f).tick := by
  simp [step, unitInstant, h, hh, hf]

theorem step_of_ready {s : State} (h : s.pins.rst = false) (hh : s.status.halted = false) (hf : s.inFlight = none) :
    step s = s.awaitCommand := by
  simp [step, unitInstant, h, hh, hf]

/-- A next state of `step` is the end of an instant in one of these six ways. -/
theorem step_cases {s t : State} (h : step s = .next t) :
    (s.pins.rst = true ∧ t = s.applyReset.tick) ∨
    (s.pins.rst = false ∧ s.status.halted = true ∧ s.schedule ≠ [] ∧ t = s.tick) ∨
    (∃ f : InFlight, s.pins.rst = false ∧ s.status.halted = false ∧ s.inFlight = some f ∧ t = (s.serve f).tick) ∨
    (s.pins.rst = false ∧ s.status.halted = false ∧ s.inFlight = none ∧ s.pins.cmdValid = false ∧ t = s.tick) ∨
    (∃ (i : Instr) (u : State), s.pins.rst = false ∧ s.status.halted = false ∧ s.inFlight = none ∧
      s.pins.cmdValid = true ∧ decode s.pins.cmd = .command i ∧ exec i s = .next u ∧ t = u.tick) ∨
    (∃ e : DecodeError, s.pins.rst = false ∧ s.status.halted = false ∧ s.inFlight = none ∧
      s.pins.cmdValid = true ∧ decode s.pins.cmd = .illegal e ∧
      t = (s.raiseFatal .illegalCmd (opOf s.pins.cmd)).tick) := by
  cases hr : s.pins.rst with
  | true =>
    rw [step_of_rst hr] at h
    exact .inl ⟨rfl, by simpa using h.symm⟩
  | false =>
    cases hh : s.status.halted with
    | true =>
      rw [step_of_halted hr hh, State.remainHalted] at h
      split at h
      · simp at h
      · next hs => exact .inr (.inl ⟨rfl, rfl, by simp [hs], by simpa using h.symm⟩)
    | false =>
      cases hf : s.inFlight with
      | some f =>
        rw [step_of_inFlight hr hh hf] at h
        exact .inr (.inr (.inl ⟨f, rfl, rfl, rfl, by simpa using h.symm⟩))
      | none =>
        rw [step_of_ready hr hh hf, State.awaitCommand] at h
        cases hv : s.pins.cmdValid with
        | false =>
          simp only [hv, Bool.false_eq_true, if_false] at h
          exact .inr (.inr (.inr (.inl ⟨rfl, rfl, rfl, rfl, by simpa using h.symm⟩)))
        | true =>
          simp only [hv, if_true] at h
          obtain ⟨u, hu, rfl⟩ := endInstant_eq_next h
          simp only [State.accept] at hu
          split at hu
          · next i hd => exact .inr (.inr (.inr (.inr (.inl ⟨i, u, rfl, rfl, rfl, rfl, hd, hu, rfl⟩))))
          · next e hd =>
            exact .inr (.inr (.inr (.inr (.inr ⟨e, rfl, rfl, rfl, rfl, hd,
              by rw [show u = s.raiseFatal .illegalCmd (opOf s.pins.cmd) from by simpa using hu.symm]⟩))))

end Sys2Proof.Machine
end

