-- ==== Sys2Proof/Tests/Slice0.lean ====
section
/-! SUPPORT. The model's own tests: the well-formedness smoke test, a word written out from the spec's encoding for every
command, one step for each command with the expected result taken from spec/95_test_vectors.md or from the rule named, and
a witness for the hypotheses of each statement that has any. -/

namespace Sys2Proof.Tests

-- The many small kernel evaluations below are checked in order: side by side, each holds a thread's stack.
set_option Elab.async false

open Sys2Proof.Machine

/-! ### Well-formedness: a term for each check, which the check refuses -/

theorem test_wellFormed_sll_refuses : (Instr.sll 1#128 (2 ^ 127)).wellFormed = false := by decide
theorem test_wellFormed_srl_refuses : (Instr.srl 1#128 (-(2 ^ 127) - 1)).wellFormed = false := by decide
theorem test_wellFormed_sra_refuses : (Instr.sra 1#128 (2 ^ 128)).wellFormed = false := by decide
theorem test_wellFormed_bounds :
    (Instr.sll 1#128 (2 ^ 127 - 1)).wellFormed = true ∧ (Instr.sra 1#128 (-(2 ^ 127))).wellFormed = true := by decide

/-! ### Decoding: R40 places `op` in bits 263:256, `a` in 255:128 and `b` in 127:0; the words are those of the rules'
examples and of spec/95_test_vectors.md section 3 -/

theorem test_decode_clz32 :
    decode 0x01FFFFFFFFFFFFFFFFFFFFFFFF0000000200000000000000000000000000000007#264 = .command (.clz32 2#32) := by
  decide +kernel
theorem test_decode_msb128 :
    decode 0x020000001000000000000000000000000000000000000000000000000000000005#264
      = .command (.msb128 0x00000010000000000000000000000000#128) := by decide +kernel
theorem test_decode_add :
    decode 0x030123456789ABCDEFFEDCBA9876543210FEDCBA98765432100123456789ABCDEF#264
      = .command (.add 0x0123456789ABCDEFFEDCBA9876543210#128 0xFEDCBA98765432100123456789ABCDEF#128) := by
  decide +kernel
theorem test_decode_sub :
    decode 0x040000000000000002000000000000000000000000000000000FFFFFFFFFFFFFFF#264
      = .command (.sub 0x00000000000000020000000000000000#128 0x00000000000000000FFFFFFFFFFFFFFF#128) := by
  decide +kernel
theorem test_decode_mul :
    decode 0x050000000000000001000000000000000200000000000000010000000000000003#264
      = .command (.mul 0x00000000000000010000000000000002#128 0x00000000000000010000000000000003#128) := by
  decide +kernel
theorem test_decode_sll :
    decode 0x06000000000000000000000000000000010000000000000000000000000000007F#264
      = .command (.sll 1#128 127) := by decide +kernel
theorem test_decode_srl :
    decode 0x0700000000000000000000000000000001FFFFFFFFFFFFFFFFFFFFFFFFFFFFFFFF#264
      = .command (.srl 1#128 (-1)) := by decide +kernel
theorem test_decode_sra :
    decode 0x088000000000000000000000000000000000000000000000000000000000000040#264
      = .command (.sra 0x80000000000000000000000000000000#128 64) := by decide +kernel
theorem test_decode_divmod :
    decode 0x090000000000000000000000000000000A00000000000000000000000000000003#264
      = .command (.divmod 10#128 3#128) := by decide +kernel
/-- R44: 0x00 and 0x0A are the edges of the reserved space. -/
theorem test_decode_reserved :
    decode 0#264 = .illegal (.reservedOpcode 0x00#8) ∧
    decode 0x0A00000000000000000000000000000000000000000000000000000000000000FF#264
      = .illegal (.reservedOpcode 0x0A#8) := by decide +kernel
/-- R31: the first byte of a transfer is the least significant, and the last, of 33, is `op`. -/
theorem test_decodeBytes_little_endian :
    decodeBytes ([0x03#8] ++ List.replicate 15 0x00#8 ++ [0x0A#8] ++ List.replicate 15 0x00#8 ++ [0x09#8])
      = .command (.divmod 10#128 3#128) := by decide +kernel

/-- R47's example: `ADD 1, 2`. -/
theorem test_decodeTableWord :
    decodeTableWord 264 0x030000000000000000000000000000000100000000000000000000000000000002
      = some (.add 1#128 2#128) := by decide +kernel

/-! ### One step from reset for each command; expected results from spec/95_test_vectors.md section 3 -/

/-- The unit after reset, presented with this word. -/
def presented (w : CommandWord) : State := State.reset.presents w

/-- The response on the port after one step. -/
def answer (s : State) : Option Response :=
  match step s with
  | .next t => t.response
  | .fault _ => none
  | .refused _ => none

/-- STATUS as a number after one step. -/
def statusAfter (s : State) : Option Nat :=
  match step s with
  | .next t => some t.statusWord.toNat
  | .fault _ => none
  | .refused _ => none

theorem test_clz32 : answer (presented 0x010000000000000000000000010000000100000000000000000000000000000005#264)
    = some ⟨0x1F#128, 0#128⟩ := by decide +kernel
theorem test_clz32_zero : answer (presented 0x01FFFFFFFFFFFFFFFFFFFFFFFF0000000000000000000000000000000000000000#264)
    = some ⟨0x20#128, 0#128⟩ := by decide +kernel
theorem test_msb128 : answer (presented 0x020000000000000001000000000000000100000000000000000000000000000000#264)
    = some ⟨0x40#128, 0#128⟩ := by decide +kernel
/-- Section 5: MSB128 of zero leaves STATUS 0x0205. -/
theorem test_msb128_zero : statusAfter (presented 0x020000000000000000000000000000000000000000000000000000000000000007#264)
    = some 0x0205 := by decide +kernel
theorem test_add_carry : answer (presented 0x030000000000000001800000000000000000000000000000008000000000000000#264)
    = some ⟨0x00000000000000020000000000000000#128, 0#128⟩ := by decide +kernel
theorem test_add_wraps : answer (presented 0x0380000000000000000000000000000000FFFFFFFFFFFFFFFFFFFFFFFFFFFFFFFF#264)
    = some ⟨0x7FFFFFFFFFFFFFFFFFFFFFFFFFFFFFFF#128, 0#128⟩ := by decide +kernel
theorem test_sub_borrow : answer (presented 0x04000000000000000200000000000000000000000000000000FFFFFFFFFFFFFFFF#264)
    = some ⟨0x00000000000000010000000000000001#128, 0#128⟩ := by decide +kernel
theorem test_sub_order : answer (presented 0x04000000000000000000000000000000007FFFFFFFFFFFFFFFFFFFFFFFFFFFFFFF#264)
    = some ⟨0x80000000000000000000000000000001#128, 0#128⟩ := by decide +kernel
theorem test_mul : answer (presented 0x050123456789ABCDEFFEDCBA9876543210FEDCBA98765432100123456789ABCDEF#264)
    = some ⟨0xBCB448E0E2B4BD632236D88FE5618CF0#128, 0#128⟩ := by decide +kernel
/-- Trace T7: the limb datapath on the same operands. -/
theorem test_mulLimbs :
    mulLimbs 0x0123456789ABCDEFFEDCBA9876543210#128 0xFEDCBA98765432100123456789ABCDEF#128
      = 0xBCB448E0E2B4BD632236D88FE5618CF0#128 := by decide +kernel
theorem test_sll_below_64 : answer (presented 0x060123456789ABCDEFFEDCBA987654321000000000000000000000000000000024#264)
    = some ⟨0x9ABCDEFFEDCBA9876543210000000000#128, 0#128⟩ := by decide +kernel
theorem test_sll_above_63 : answer (presented 0x060123456789ABCDEFFEDCBA987654321000000000000000000000000000000064#264)
    = some ⟨0x65432100000000000000000000000000#128, 0#128⟩ := by decide +kernel
theorem test_srl_below_64 : answer (presented 0x070123456789ABCDEFFEDCBA987654321000000000000000000000000000000024#264)
    = some ⟨0x0000000000123456789ABCDEFFEDCBA9#128, 0#128⟩ := by decide +kernel
/-- U1: amount 128 is refused. -/
theorem test_srl_undefined :
    (match step (presented 0x070000000000000000000000000000000100000000000000000000000000000080#264) with
      | .refused r => some r
      | _ => none) = some (.shiftAmountUndefined 128) := by decide +kernel
theorem test_sra_below_64 : answer (presented 0x08F123456789ABCDEFFEDCBA987654321000000000000000000000000000000024#264)
    = some ⟨0xFFFFFFFFFF123456789ABCDEFFEDCBA9#128, 0#128⟩ := by decide +kernel
theorem test_sra_above_63 : answer (presented 0x08F123456789ABCDEFFEDCBA987654321000000000000000000000000000000064#264)
    = some ⟨0xFFFFFFFFFFFFFFFFFFFFFFFFFF123456#128, 0#128⟩ := by decide +kernel
/-- The formatter's first decimal chunk of the magnitude of Int128Min: bit 127 is set in the dividend (R74). -/
theorem test_divmod : answer (presented 0x098000000000000000000000000000000000000000000000008AC7230489E80000#264)
    = some ⟨0x0000000000000000EC1E4A7DB69561A5#128, 0x0000000000000000176A81CA35780000#128⟩ := by decide +kernel
/-- Section 5: DIVMOD 0, 0 leaves STATUS 0x0903. -/
theorem test_divmod_zero : statusAfter (presented 0x090000000000000000000000000000000000000000000000000000000000000000#264)
    = some 0x0903 := by decide +kernel
/-- Section 5: the all-ones word leaves STATUS 0xFF07. -/
theorem test_illegal : statusAfter (presented (BitVec.allOnes 264)) = some 0xFF07 := by decide +kernel

/-- `DIVMOD 10, 3`. -/
def tenByThree : CommandWord := commandWord 0x09#8 10#128 3#128

/-- `DIVMOD 10, 3` one iteration a step, at the ITER with index 0 of trace T1, and then one idle instant. -/
def midDivision : State :=
  { State.reset with
    granularity := .perIteration
    inFlight := some ⟨tenByThree, .iterating ⟨4#128, 3#128, 1#128, 0⟩⟩
    schedule := [HostPins.idle] }

/-- Trace T1, last row: `rem` after is 1 and `q` after is 3; R76: `dd` is SRL(3, 1), `i` stays 0, and DONE still holds
them (R20). -/
theorem test_iteration : (match step midDivision with | .next t => some t.divider | _ => none)
    = some ⟨1#128, 1#128, 3#128, 0⟩ := by decide +kernel

/-- Program P5, line 3: the operand `%2.y` is zero, the word is `DIVMOD 10, 0`. -/
theorem test_script_line :
    Line.assemble [⟨3#128, 0#128⟩, ⟨0#128, 0#128⟩] ⟨.core .divmod, [.dec 10, .resultY 2]⟩
      = some (.divmod 10#128 0#128) := by decide +kernel
/-- R47: a form W operand must fit in 32 bits; `NEG 1` is `SUB 0, 1`. -/
theorem test_assemble :
    Line.assemble [] ⟨.core .clz32, [.hex 0x100000000]⟩ = none ∧
    Line.assemble [] ⟨.neg, [.dec 1]⟩ = some (.sub 0#128 1#128) := by decide +kernel

/-! ### Witnesses: a concrete state and operands that meet the hypotheses of each statement, clause by clause -/

/-- A halted unit (DIVMOD by zero) with two instants left. -/
def halted : State :=
  { State.reset with status := ⟨true, 1#3, 0x09#8⟩, schedule := [HostPins.present tenByThree, HostPins.idle] }

/-- A unit with a response on its port and a host that takes it or not. -/
def answered (ready : Bool) : State :=
  { State.reset with
    inFlight := some ⟨commandWord 0x03#8 1#128 2#128, .answered ⟨3#128, 0#128⟩⟩
    schedule := [⟨false, false, 0#264, ready⟩] }

/-- `DIVMOD 10, 3` presented to a unit that performs one iteration a step. -/
def steppedStart : State := State.presents { State.reset with granularity := .perIteration } tenByThree

theorem witness_DecodeOfEncodeIsIdentity :
    (Instr.sll 5#128 (-(2 ^ 127))).wellFormed = true ∧ (Instr.divmod 10#128 3#128).wellFormed = true := by decide
theorem witness_EncodeOfDecodeKeepsReadFields :
    ∃ w i, decode w = .command i ∧ i.mnemonic = .clz32 ∧ w ≠ encode i :=
  ⟨commandWord 0x01#8 0xFFFFFFFFFFFFFFFF00000001#128 7#128, .clz32 1#32, by decide +kernel⟩
theorem witness_EncodeOfDecode_other_forms :
    ∃ w w' i i', decode w = .command i ∧ i.mnemonic = .msb128 ∧
      decode w' = .command i' ∧ i'.mnemonic ≠ .clz32 ∧ i'.mnemonic ≠ .msb128 :=
  ⟨commandWord 0x02#8 1#128 7#128, tenByThree, .msb128 1#128, .divmod 10#128 3#128, by decide +kernel⟩
theorem witness_ReservedOpcodesAreIllegal :
    ((0x00#8 : Byte) = 0x00#8 ∧ (presented (commandWord 0x00#8 1#128 2#128)).accepts (commandWord 0x00#8 1#128 2#128)) ∧
    ((0x0A#8 : Byte) ≤ 0x0A#8 ∧ (presented (commandWord 0x0A#8 0#128 0#128)).accepts (commandWord 0x0A#8 0#128 0#128)) ∧
    ((0x0A#8 : Byte) ≤ 0xFF#8 ∧ (presented (commandWord 0xFF#8 0#128 0#128)).accepts (commandWord 0xFF#8 0#128 0#128)) := by
  decide +kernel
theorem witness_IgnoredFieldsDoNotMatter :
    ∃ a a' : Value, a ≠ a' ∧ wordOperand a = wordOperand a' := ⟨1#128, 0x100000001#128, by decide +kernel⟩
theorem witness_SerialTransferRoundTrips : ∃ bs : List Byte, bs.length ≠ 33 := ⟨List.replicate 34 0#8, by decide⟩
theorem witness_Clz32CountsLeadingZeros :
    (∃ w : CommandWord, opOf w = 0x01#8) ∧
    ((0x80000001#32 : Limb).getLsbD 31 = true ∧ ∀ j : Nat, 31 < j → (0x80000001#32 : Limb).getLsbD j = false) ∧
    ((1#32 : Limb).getLsbD 0 = true ∧ ∀ j : Nat, 0 < j → (1#32 : Limb).getLsbD j = false) := by
  refine ⟨⟨commandWord 0x01#8 0#128 0#128, by decide +kernel⟩, ⟨by decide, fun j h => BitVec.getLsbD_of_ge _ _ h⟩,
    by decide, fun j h => ?_⟩
  simp [BitVec.getLsbD_one]; omega
theorem witness_Msb128FindsTheHighestSetBit :
    (∃ w : CommandWord, opOf w = 0x02#8) ∧ ∃ a : Value, a ≠ 0#128 ∧ a.toInt < 0 :=
  ⟨⟨commandWord 0x02#8 0#128 0#128, by decide +kernel⟩, int128Min, by decide +kernel⟩
theorem witness_ScannerStructure :
    (∃ n : Value, n ≠ 0#128 ∧ high n ≠ 0#64) ∧ ∃ n : Value, n ≠ 0#128 ∧ high n = 0#64 :=
  ⟨⟨mk 1#64 0#64, by decide +kernel⟩, ⟨1#128, by decide +kernel⟩⟩
theorem witness_BitScanLaws :
    (∃ x : Limb, x ≠ 0#32) ∧ ∃ (n : Value) (k : Fin 128), n ≠ 0#128 ∧ k.val ≤ 127 - msb128 n ∧ k.val = 127 :=
  ⟨⟨1#32, by decide⟩, 1#128, 127, by decide +kernel⟩
theorem witness_AddIsTheSumModuloTwoPow128 :
    (∃ w : CommandWord, opOf w = 0x03#8) ∧ ∃ (a b : Value) (lo hi : Half) (c2 : Bool),
      add64 (low a) (low b) false = (lo, true) ∧ add64 (high a) (high b) true = (hi, c2) :=
  ⟨⟨commandWord 0x03#8 0#128 0#128, by decide +kernel⟩, BitVec.allOnes 128, 1#128, 0#64, 0#64, true, by decide +kernel⟩
theorem witness_SubIsTheDifferenceModuloTwoPow128 :
    (∃ w : CommandWord, opOf w = 0x04#8) ∧ ∃ (a b : Value) (lo hi : Half) (br2 : Bool),
      sub64 (low a) (low b) false = (lo, true) ∧ sub64 (high a) (high b) true = (hi, br2) :=
  ⟨⟨commandWord 0x04#8 0#128 0#128, by decide +kernel⟩, mk 1#64 0#64, 1#128, BitVec.allOnes 64, 0#64, false,
    by decide +kernel⟩
theorem witness_OverflowWrapsSilently :
    2 ^ 127 - 1 < int128Max.toInt + (1#128 : Value).toInt ∧
    int128Min.toInt + (BitVec.allOnes 128).toInt < -(2 ^ 127) ∧
    2 ^ 127 - 1 < int128Max.toInt - (BitVec.allOnes 128).toInt ∧
    int128Min.toInt - (1#128 : Value).toInt < -(2 ^ 127) := by decide +kernel
theorem witness_Mul_words : ∃ w : CommandWord, opOf w = 0x05#8 := ⟨commandWord 0x05#8 0#128 0#128, by decide +kernel⟩
theorem witness_SllShiftsLeftWithZeroFill :
    (∃ w : CommandWord, opOf w = 0x06#8) ∧ (∀ k ∈ [0, 1, 63, 64, 127], k ≤ 127) ∧
    ((-1 : Int) < 0 ∨ (127 : Int) < -1) ∧ ((128 : Int) < 0 ∨ (127 : Int) < 128) :=
  ⟨⟨commandWord 0x06#8 0#128 0#128, by decide +kernel⟩, by decide⟩
theorem witness_SrlShiftsRightWithZeroFill :
    (∃ w : CommandWord, opOf w = 0x07#8) ∧ (∀ k ∈ [0, 1, 63, 64, 127], k ≤ 127) ∧
    ((-1 : Int) < 0 ∨ (127 : Int) < -1) ∧ ((128 : Int) < 0 ∨ (127 : Int) < 128) ∧ int128Max.getLsbD 127 = false :=
  ⟨⟨commandWord 0x07#8 0#128 0#128, by decide +kernel⟩, by decide, by decide, by decide, by decide +kernel⟩
theorem witness_SraShiftsRightWithSignFill :
    (∃ w : CommandWord, opOf w = 0x08#8) ∧ (∀ k ∈ [0, 1, 63, 64, 127], k ≤ 127) ∧
    ((-1 : Int) < 0 ∨ (127 : Int) < -1) ∧ ((128 : Int) < 0 ∨ (127 : Int) < 128) :=
  ⟨⟨commandWord 0x08#8 0#128 0#128, by decide +kernel⟩, by decide⟩
theorem witness_ShiftAmountOutsideTheContractIsRefused :
    (high 127#128 = 0#64 ∧ (low 127#128).toNat ≤ 127) ∧
    ¬(high 128#128 = 0#64 ∧ (low 128#128).toNat ≤ 127) ∧
    ¬(high (BitVec.allOnes 128) = 0#64 ∧ (low (BitVec.allOnes 128)).toNat ≤ 127) ∧
    ¬(high (mk 1#64 0#64) = 0#64 ∧ (low (mk 1#64 0#64)).toNat ≤ 127) := by decide +kernel
theorem witness_ShiftLaws :
    (1#128 : Value).toNat * 2 ^ 127 < 2 ^ 128 ∧
    (-(2 ^ 127) ≤ (BitVec.allOnes 128).toInt * 2 ^ 127 ∧ (BitVec.allOnes 128).toInt * 2 ^ 127 ≤ 2 ^ 127 - 1) ∧
    (64 : Fin 128).val + (63 : Fin 128).val < 128 := by decide +kernel
theorem witness_DivmodIsUnsignedFloorDivision :
    (∃ w : CommandWord, opOf w = 0x09#8) ∧ ∃ (s : State) (b : Value), b ≠ 0#128 ∧ s.granularity = .wholeCommand :=
  ⟨⟨tenByThree, by decide +kernel⟩, State.reset, 3#128, by decide⟩
theorem witness_DivisionLoopFacts :
    ((3#128 : Value) ≠ 0#128 ∧ (3#128 : Value).toNat < (10#128 : Value).toNat) ∧
    (DivWork.InLoop 10#128 3#128 ⟨10#128, 12#128, 0#128, 2⟩ ∧ (2 : Fin 128) ≠ 0) ∧
    (DivWork.InLoop 10#128 3#128 ⟨4#128, 3#128, 1#128, 0⟩) ∧ geu 4#128 3#128 = true := by decide +kernel
theorem witness_DivmodNeverScansZero :
    (gtu 3#128 10#128 = false ∧ eq128 3#128 10#128 = false) ∧
    (∃ t, exec (.divmod 10#128 3#128) State.reset = .next t) ∧
    (∃ t, exec (.divmod 10#128 0#128) State.reset = .next t) ∧
    ∃ (s t : State) (f : InFlight), s.pins.rst = false ∧ s.status.halted = false ∧ s.inFlight = some f ∧
      step s = .next t :=
  ⟨by decide +kernel, ⟨_, rfl⟩, ⟨_, rfl⟩, midDivision, _, _, rfl, rfl, rfl, rfl⟩
theorem witness_SteppedDivision_start :
    steppedStart.accepts tenByThree ∧ opOf tenByThree = 0x09#8 ∧ bOf tenByThree ≠ 0#128 ∧
    steppedStart.granularity = .perIteration ∧ (∀ p ∈ steppedStart.schedule, p.rst = false) ∧
    (3 ≤ iterations (aOf tenByThree) (bOf tenByThree)) := by decide +kernel
theorem witness_SteppedDivision_cases :
    gtu 10#128 3#128 = true ∧ (7#128 : Value) = 7#128 ∧ gtu 3#128 1#128 = true ∧
    (geu 4#128 3#128 = true ∧ geu 10#128 12#128 = false) := by decide +kernel
theorem witness_SteppedDivision_stages :
    (∃ (s : State) (cmd : CommandWord) (w : DivWork), s.pins.rst = false ∧ s.status.halted = false ∧
      s.inFlight = some ⟨cmd, .iterating w⟩ ∧ w.i = 0) ∧
    (∃ (s : State) (cmd : CommandWord) (w : DivWork), s.pins.rst = false ∧ s.status.halted = false ∧
      s.inFlight = some ⟨cmd, .iterating w⟩ ∧ w.i ≠ 0) ∧
    (∃ (s : State) (cmd : CommandWord) (q r : Value), s.pins.rst = false ∧ s.status.halted = false ∧
      s.inFlight = some ⟨cmd, .divided q r (some ⟨1#128, 0⟩)⟩) ∧
    (∃ (s : State) (f : InFlight), s.inFlight = some f ∧ s.pins.rst = true) :=
  ⟨⟨midDivision, _, _, rfl, rfl, rfl, rfl⟩,
   ⟨{ midDivision with inFlight := some ⟨tenByThree, .iterating ⟨10#128, 12#128, 0#128, 2⟩⟩ }, _, _, rfl, rfl, rfl,
     by decide⟩,
   ⟨{ midDivision with inFlight := some ⟨tenByThree, .divided 3#128 1#128 (some ⟨1#128, 0⟩)⟩ }, _, _, _, rfl, rfl, rfl⟩,
   ⟨{ midDivision with schedule := [HostPins.reset] }, _, rfl, rfl⟩⟩
theorem witness_SignedReadingOfDivision :
    (10#128 : Value).getLsbD 127 = false ∧ (3#128 : Value).getLsbD 127 = false ∧ (3#128 : Value) ≠ 0#128 ∧
    DivWork.InLoop 10#128 3#128 ⟨4#128, 3#128, 1#128, 0⟩ := by decide +kernel
theorem witness_DivisionIdentity :
    (3#128 : Value) ≠ 0#128 ∧ int128Max.getLsbD 127 = false ∧ (3#128 : Value).getLsbD 127 = false := by decide +kernel
theorem witness_DivisionTerminates :
    (1#128 : Value) ≠ 0#128 ∧ (1#128 : Value).toNat < int128Min.toNat ∧ iterations int128Min 1#128 = 128 ∧
    iterations 3#128 2#128 = 1 ∧ iterations 2#128 3#128 = 0 := by decide +kernel
theorem witness_FatalEntry :
    ((presented 0#264).accepts 0#264 ∧ decode 0#264 = .illegal (.reservedOpcode 0x00#8)) ∧
    (halted.status.halted = true ∧ halted.pins.rst = false) ∧ ∃ t, step halted = .next t :=
  ⟨by decide +kernel, by decide, _, rfl⟩
theorem witness_OnlyThreeCausesOfAFatal :
    ∀ w ∈ [commandWord 0x09#8 10#128 0#128, commandWord 0x02#8 0#128 7#128, commandWord 0x0A#8 1#128 1#128],
      (presented w).pins.rst = false ∧
      ∃ t, step (presented w) = .next t ∧ t.status ≠ (presented w).status := by
  intro w hw
  fin_cases hw
  · exact ⟨rfl, _, rfl, by decide⟩
  · exact ⟨rfl, _, rfl, by decide⟩
  · exact ⟨rfl, _, rfl, by decide +kernel⟩
theorem witness_HaltedUnitAcceptsNothingUntilReset :
    halted.status.halted = true ∧ halted.pins.rst = false ∧ halted.schedule ≠ [] ∧ (∃ t, step halted = .next t) ∧
    ∃ s t : State, s.status.halted = true ∧ step s = .next t ∧ t.status.halted = false :=
  ⟨rfl, rfl, by decide, ⟨_, rfl⟩, { halted with schedule := [HostPins.reset] }, _, rfl, rfl, rfl⟩
theorem witness_HaltedRunEndsInTheFault :
    ∃ s f, step s = .fault f := ⟨{ halted with schedule := [] }, _, rfl⟩
theorem witness_FatalPinFallsOnlyAtReset :
    (∃ s t : State, step s = .next t ∧ s.fatalPin = true ∧ t.fatalPin = false) ∧
    (∃ s t : State, step s = .next t ∧ s.fatalPin = true ∧ t.fatalPin = true) ∧
    (∃ s t : State, step s = .next t ∧ s.fatalPin = false ∧ t.fatalPin = true) :=
  ⟨⟨{ halted with schedule := [HostPins.reset] }, _, rfl, rfl, rfl⟩, ⟨halted, _, rfl, rfl, rfl⟩,
   ⟨presented (commandWord 0x09#8 10#128 0#128), _, rfl, rfl, rfl⟩⟩
theorem witness_SilentArithmeticIsTotal : (0 : Int) ≤ 127 ∧ (127 : Int) ≤ 127 ∧ (0 : Int) ≤ 0 := by decide
theorem witness_ResetOverridesEverything :
    ∃ s t : State, s.pins.rst = true ∧ step s = .next t ∧ t.pins.rst = false :=
  ⟨{ midDivision with schedule := [HostPins.reset] }, _, rfl, rfl, rfl⟩
theorem witness_HandshakeOfThePorts :
    ((presented tenByThree).cmdReady = true ∧ (presented tenByThree).pins.cmdValid = true) ∧
    (State.reset.cmdReady = true ∧ State.reset.pins.cmdValid = false) ∧
    (∀ b : Bool, (answered b).pins.rst = false ∧ (answered b).status.halted = false ∧
      (answered b).pins.respReady = b ∧ (answered b).tick.pins.rst = false ∧
      (answered b).inFlight = some ⟨commandWord 0x03#8 1#128 2#128, .answered ⟨3#128, 0#128⟩⟩) := by decide +kernel
/-- R90, R94: with `rst` asserted no response is on the port, so none is taken, whatever `resp_ready` is. -/
theorem test_no_response_in_reset :
    ({ answered true with schedule := [⟨true, false, 0#264, true⟩] } : State).respValid = false ∧
    (match step { answered true with schedule := [⟨true, false, 0#264, true⟩] } with
      | .next t => some t.taken
      | _ => none) = some [] := by decide +kernel
theorem witness_TransfersHappenWhenValidAndReady :
    (∃ t, step (answered true) = .next t ∧ t.taken = [⟨3#128, 0#128⟩] ∧ (answered true).status.halted = false ∧
      (answered true).respValid = true ∧ (answered true).pins.respReady = true) ∧
    (∃ t, step (answered false) = .next t ∧ t.taken = [] ∧ (answered false).status.halted = false ∧
      (answered false).respValid = true ∧ (answered false).pins.respReady = false) ∧
    (∃ t, step halted = .next t ∧ halted.status.halted = true ∧ halted.inFlight = none ∧ halted.cmdReady = false) :=
  ⟨⟨_, rfl, rfl, rfl, rfl, rfl⟩, ⟨_, rfl, rfl, rfl, rfl, rfl⟩, _, rfl, rfl, rfl, rfl⟩
theorem witness_DividerIsHidden :
    ∀ r : Response, Stage.iterating ⟨4#128, 3#128, 1#128, 0⟩ ≠ .answered r ∧
      Stage.divided 3#128 1#128 (some ⟨1#128, 0⟩) ≠ .answered r := by intro r; simp
theorem witness_ExecFrame :
    (∃ t, exec (.add 1#128 2#128) State.reset = .next t) ∧ (∃ t, exec (.msb128 0#128) State.reset = .next t) ∧
    (∃ t, exec (.divmod 1#128 0#128) State.reset = .next t) := ⟨⟨_, rfl⟩, ⟨_, rfl⟩, ⟨_, rfl⟩⟩
theorem witness_StepRunsTheDecodedCommand :
    (presented tenByThree).accepts tenByThree ∧ decode tenByThree = .command (.divmod 10#128 3#128) ∧
    ∃ t, exec (.divmod 10#128 3#128) (presented tenByThree) = .next t :=
  ⟨by decide +kernel, by decide +kernel, _, rfl⟩
theorem witness_StepKeepsTheInvariant : midDivision.Inv ∧ ∃ t, step midDivision = .next t :=
  ⟨⟨by decide, by decide, by
    show opOf tenByThree = Mnemonic.divmod.opcode ∧ bOf tenByThree ≠ 0#128 ∧
      DivWork.InLoop (aOf tenByThree) (bOf tenByThree) ⟨4#128, 3#128, 1#128, 0⟩
    decide +kernel⟩, _, rfl⟩
theorem witness_OutcomeDependsOnTheCommandWordAlone :
    ((presented tenByThree).accepts tenByThree ∧
      (State.presents { halted with taken := [⟨1#128, 1#128⟩] } tenByThree).accepts tenByThree ∧
      (presented tenByThree).granularity =
        (State.presents { halted with taken := [⟨1#128, 1#128⟩] } tenByThree).granularity) ∧
    ∃ (s₁ s₂ : State) (f : InFlight), s₁ ≠ s₂ ∧ s₁.inFlight = some f ∧ s₂.inFlight = some f ∧
      s₁.status.halted = false ∧ s₂.status.halted = false ∧ s₁.pins.rst = false ∧ s₂.pins.rst = false ∧
      ∀ r : Response, f.stage ≠ .answered r :=
  ⟨by decide +kernel, midDivision, { midDivision with schedule := [HostPins.take] }, _, by decide +kernel, rfl, rfl, rfl,
    rfl, rfl, rfl, by intro r; simp⟩
theorem witness_MachinePerformsTheAbstractUnit :
    ∀ w : CommandWord, (presented w).accepts w ∧ (presented w).granularity = .wholeCommand :=
  fun _ => ⟨⟨rfl, rfl, rfl⟩, rfl⟩
theorem witness_MachinePerforms_each_outcome :
    transact tenByThree = .respond ⟨3#128, 1#128⟩ ∧ transact (commandWord 0x09#8 10#128 0#128) = .fatal .divZero ∧
    transact (commandWord 0x06#8 1#128 128#128) = .undefined 128 := by decide +kernel
theorem witness_RunsAreRunsOfTheAbstractUnit :
    ∃ s : State, s.endedWell ∧ s.granularity = .wholeCommand ∧
      s.schedule = obedientSchedule [tenByThree, commandWord 0x09#8 10#128 0#128] :=
  ⟨{ State.reset with schedule := obedientSchedule [tenByThree, commandWord 0x09#8 10#128 0#128] }, by decide, rfl, rfl⟩
theorem witness_RunsAreRuns_each_end :
    abstractRun [tenByThree] = .endsWell [⟨3#128, 1#128⟩] ∧
    abstractRun [tenByThree, 0#264] = .endsInFault [⟨3#128, 1#128⟩] .illegalCmd 0x00#8 ∧
    abstractRun [tenByThree, commandWord 0x06#8 1#128 128#128] = .noMeaning [⟨3#128, 1#128⟩] 128 := by decide +kernel
/-- Program P1 of spec/95_test_vectors.md section 4, its first two lines. -/
theorem witness_ScriptsAreRunsOverTheirWords :
    runScript [⟨.core .divmod, [.dec 10, .dec 3]⟩, ⟨.core .mul, [.resultY 1, .dec 3]⟩] []
      = .ran (.endsWell [⟨3#128, 1#128⟩, ⟨9#128, 0#128⟩]) := by decide +kernel
/-- The other ends: a fatal line (R49: later lines are never accepted), an undefined one, a reference to no line. -/
theorem witness_ScriptsAreRuns_each_end :
    runScript [⟨.core .divmod, [.dec 10, .dec 3]⟩, ⟨.div, [.resultZ 1, .zero]⟩, ⟨.neg, [.dec 1]⟩] []
      = .ran (.endsInFault [⟨3#128, 1#128⟩] .divZero 0x09#8) ∧
    runScript [⟨.core .sll, [.dec 1, .dec 128]⟩, ⟨.neg, [.dec 1]⟩] [] = .ran (.noMeaning [] 128) ∧
    runScript [⟨.neg, [.dec 1]⟩, ⟨.neg, [.resultY 3]⟩] [] = .badLine [⟨BitVec.allOnes 128, 0#128⟩] := by
  decide +kernel

end Sys2Proof.Tests
end

section
/-! PROOFS about the state (spec/10_state.md): the value format (R10), composition and the layout of the 128-bit fields
(R12), and that a command's outcome is a function of its word alone (R23). -/

namespace Sys2Proof.Machine

/-! ### The value format (R10) -/

theorem toInt_mk (h l : Half) : (mk h l).toInt = h.toInt * 2 ^ 64 + l.toNat := by
  have happend : (mk h l).toInt = 2 ^ 64 * h.toInt + l.toNat := BitVec.toInt_append
  rw [happend, mul_comm]

theorem toInt_eq_halves (x : Value) : x.toInt = (high x).toInt * 2 ^ 64 + (low x).toNat := by
  rw [← toInt_mk, mk_high_low]

theorem toNat_eq_toInt_emod (x : Value) : (x.toNat : Int) = x.toInt % 2 ^ 128 := by
  have := x.isLt
  rw [BitVec.toInt_eq_toNat_cond]
  split <;> omega

theorem toInt_neg_iff_signBit (x : Value) : x.toInt < 0 ↔ x.getLsbD 127 = true := by
  rw [← BitVec.msb_eq_getLsbD_last, BitVec.msb_eq_toInt, decide_eq_true_iff]

/-- Settles O1: the signed value of a concatenation of halves gives the first clause; the rest are the range of the
two readings and the sign bit. -/
theorem valueIsHighTimesTwoPow64PlusLow : Obligations.ValueIsHighTimesTwoPow64PlusLow := by
  intro x
  have hlo : -(2 ^ 127) ≤ x.toInt := x.le_toInt
  have hhi : x.toInt < 2 ^ 127 := x.toInt_lt
  have hnat : x.toNat < 2 ^ 128 := x.isLt
  exact ⟨toInt_eq_halves x, toNat_eq_halves x, hlo, Int.le_sub_one_of_lt hhi, Nat.le_sub_one_of_lt hnat,
    toNat_eq_toInt_emod x, toInt_neg_iff_signBit x⟩

/-! ### Composition and the layout of 128-bit fields (R12, R40, R41) -/

theorem extractLsb'_extractLsb' {m : Nat} (w : BitVec m) (start : Nat) {off len n : Nat} (h : off + len ≤ n) :
    (w.extractLsb' start n).extractLsb' off len = w.extractLsb' (start + off) len := by
  refine BitVec.eq_of_getLsbD_eq fun i hi => ?_
  have hn : off + i < n := by omega
  simp [hi, hn, Nat.add_assoc]

/-- The high half of a 128-bit field is the upper 64 bits of the field in the word that holds it. -/
theorem high_extractLsb' {m : Nat} (w : BitVec m) (start : Nat) :
    high (w.extractLsb' start 128) = w.extractLsb' (start + 64) 64 :=
  extractLsb'_extractLsb' w start (by decide)

/-- The low half of a 128-bit field is the lower 64 bits of the field in the word that holds it. -/
theorem low_extractLsb' {m : Nat} (w : BitVec m) (start : Nat) :
    low (w.extractLsb' start 128) = w.extractLsb' start 64 :=
  extractLsb'_extractLsb' w start (by decide)

theorem Response.extractLsb'_word_y (r : Response) : r.word.extractLsb' 128 128 = r.y :=
  BitVec.extractLsb'_append_eq_left

theorem Response.extractLsb'_word_z (r : Response) : r.word.extractLsb' 0 128 = r.z :=
  BitVec.extractLsb'_append_eq_right

/-- Settles O2: the round trips are the laws of `mk`, `high` and `low`; the layout is that of a half within a 128-bit
field, the operands and the results being such fields of their words. -/
theorem composeAndDecomposeAreInverse : Obligations.ComposeAndDecomposeAreInverse := by
  refine ⟨fun h l => ?_, mk_high_low, fun w => ?_, fun r => ?_⟩
  · simp [decompose]
  · exact ⟨high_extractLsb' w 128, low_extractLsb' w 128, high_extractLsb' w 0, low_extractLsb' w 0⟩
  · rw [← high_extractLsb' r.word 128, ← low_extractLsb' r.word 128, ← high_extractLsb' r.word 0,
      ← low_extractLsb' r.word 0, r.extractLsb'_word_y, r.extractLsb'_word_z]
    exact ⟨rfl, rfl, rfl, rfl⟩

/-! ### Purity: the outcome of a command is a function of its word (R23) -/

/-- What becomes of a command, as far as the unit is concerned: everything about its acceptance that does not come from
the state it is accepted in. -/
inductive Verdict where
  /-- the command is undefined and refused (R68) -/
  | refuse (r : Refusal)
  /-- the command is fatal with this cause and FOP (R83) -/
  | fatal (c : Cause) (op : Byte)
  /-- the command is in flight at this stage: answered, or a division entered (R76, R94) -/
  | enter (g : Stage)

/-- The verdict carried out on a state. -/
def Verdict.apply : Verdict → State → Host.Outcome State Fault Refusal
  | .refuse r, _ => .refused r
  | .fatal c op, s => .next (s.raiseFatal c op)
  | .enter g, s => .next (s.enterDivision g)

/-- An answer is the entry of the stage `answered`: one rule serves answers and divisions alike. -/
theorem State.respond_eq_enterDivision (s : State) (y z : Value) :
    s.respond y z = s.enterDivision (.answered ⟨y, z⟩) := rfl

theorem exec_sll_of_some {a : Value} {k : Int} {n : Fin 128} (s : State) (hk : legalAmount k = some n) :
    exec (.sll a k) s = .next (s.respond (sll128 a n) 0#128) := by
  simp [exec, execSll, hk]

theorem exec_sll_of_none {a : Value} {k : Int} (s : State) (hk : legalAmount k = none) :
    exec (.sll a k) s = .refused (.shiftAmountUndefined k) := by
  simp [exec, execSll, hk]

theorem exec_srl_of_some {a : Value} {k : Int} {n : Fin 128} (s : State) (hk : legalAmount k = some n) :
    exec (.srl a k) s = .next (s.respond (srl128 a n) 0#128) := by
  simp [exec, execSrl, hk]

theorem exec_srl_of_none {a : Value} {k : Int} (s : State) (hk : legalAmount k = none) :
    exec (.srl a k) s = .refused (.shiftAmountUndefined k) := by
  simp [exec, execSrl, hk]

theorem exec_sra_of_some {a : Value} {k : Int} {n : Fin 128} (s : State) (hk : legalAmount k = some n) :
    exec (.sra a k) s = .next (s.respond (sra128 a n) 0#128) := by
  simp [exec, execSra, hk]

theorem exec_sra_of_none {a : Value} {k : Int} (s : State) (hk : legalAmount k = none) :
    exec (.sra a k) s = .refused (.shiftAmountUndefined k) := by
  simp [exec, execSra, hk]

/-- A shift has the same verdict in every state: whether it is answered turns on the amount alone (R68). -/
theorem exists_verdict_of_amount {i : Instr} {k : Int} {y : Fin 128 → Value} (g : Granularity)
    (hsome : ∀ {n : Fin 128} (s : State), legalAmount k = some n → exec i s = .next (s.respond (y n) 0#128))
    (hnone : ∀ s : State, legalAmount k = none → exec i s = .refused (.shiftAmountUndefined k)) :
    ∃ v : Verdict, ∀ s : State, s.granularity = g → exec i s = v.apply s := by
  cases hk : legalAmount k with
  | some n => exact ⟨.enter (.answered ⟨y n, 0#128⟩), fun s _ => hsome s hk⟩
  | none => exact ⟨.refuse (.shiftAmountUndefined k), fun s _ => hnone s hk⟩

/-- At a given granularity (log 5) the verdict on a command is the same in every state. -/
theorem exec_eq_verdict (i : Instr) (g : Granularity) :
    ∃ v : Verdict, ∀ s : State, s.granularity = g → exec i s = v.apply s := by
  cases i with
  | clz32 x => exact ⟨.enter (.answered ⟨_, _⟩), fun _ _ => rfl⟩
  | msb128 a =>
    by_cases ha : a = 0#128
    · exact ⟨.fatal .scanZero Mnemonic.msb128.opcode, fun _ _ => if_pos ha⟩
    · exact ⟨.enter (.answered ⟨_, _⟩), fun _ _ => if_neg ha⟩
  | add a b => exact ⟨.enter (.answered ⟨_, _⟩), fun _ _ => rfl⟩
  | sub a b => exact ⟨.enter (.answered ⟨_, _⟩), fun _ _ => rfl⟩
  | mul a b => exact ⟨.enter (.answered ⟨_, _⟩), fun _ _ => rfl⟩
  | sll a k => exact exists_verdict_of_amount g exec_sll_of_some exec_sll_of_none
  | srl a k => exact exists_verdict_of_amount g exec_srl_of_some exec_srl_of_none
  | sra a k => exact exists_verdict_of_amount g exec_sra_of_some exec_sra_of_none
  | divmod a b =>
    by_cases hb : b = 0#128
    · exact ⟨.fatal .divZero Mnemonic.divmod.opcode, fun _ _ => if_pos hb⟩
    · cases g with
      | wholeCommand =>
        exact ⟨.enter (.answered ⟨(divMod a b).1, (divMod a b).2⟩), fun s hg => by
          simp [exec, execDivmod, hb, hg, Verdict.apply, State.respond_eq_enterDivision]⟩
      | perIteration =>
        exact ⟨.enter (divStart a b), fun s hg => by simp [exec, execDivmod, hb, hg, Verdict.apply]⟩

/-- At a given granularity the verdict on a word on the command port is the same in every state. -/
theorem accept_eq_verdict (w : CommandWord) (g : Granularity) :
    ∃ v : Verdict, ∀ s : State, s.pins.cmd = w → s.granularity = g → s.accept = v.apply s := by
  cases hd : decode w with
  | command i =>
    obtain ⟨v, hv⟩ := exec_eq_verdict i g
    exact ⟨v, fun s hw hg => by rw [State.accept, hw, hd]; exact hv s hg⟩
  | illegal e =>
    exact ⟨.fatal .illegalCmd (opOf w), fun s hw _ => by rw [State.accept, hw, hd]; rfl⟩

theorem step_of_accepts {s : State} {w : CommandWord} (h : s.accepts w) : step s = endInstant s.accept := by
  obtain ⟨hready, hvalid, -⟩ := h
  obtain ⟨hrst, hhalted, hidle⟩ := s.cmdReady_iff.mp hready
  rw [step_of_ready hrst hhalted hidle, State.awaitCommand, if_pos hvalid]

/-- A stepped division in flight goes on to one and the same next stage in every state. -/
theorem serve_eq_of_not_answered {f : InFlight} (hf : ∀ r : Response, f.stage ≠ .answered r) :
    ∃ g : Stage, ∀ s : State, s.serve f = { s with inFlight := some ⟨f.cmd, g⟩ } := by
  obtain ⟨cmd, stage⟩ := f
  cases stage with
  | iterating w => exact ⟨divIter w, fun _ => rfl⟩
  | divided q r l => exact ⟨.answered ⟨q, r⟩, fun _ => rfl⟩
  | answered r => exact absurd rfl (hf r)

/-- Settles O55: the verdict on the word is chosen before the state is, so both units carry out the same one; and a
division in flight has its next stage before the state is known. -/
theorem outcomeDependsOnTheCommandWordAlone : Obligations.OutcomeDependsOnTheCommandWordAlone := by
  constructor
  · intro s₁ s₂ w h₁ h₂ hg
    obtain ⟨v, hv⟩ := accept_eq_verdict w s₁.granularity
    have ⟨_, _, hw₁⟩ := h₁
    have ⟨_, _, hw₂⟩ := h₂
    rw [step_of_accepts h₁, step_of_accepts h₂, hv s₁ hw₁ rfl, hv s₂ hw₂ hg.symm]
    cases v with
    | refuse r => exact .inl ⟨r, rfl, rfl⟩
    | fatal c op => exact .inr ⟨_, _, rfl, rfl, rfl, .inr ⟨rfl, rfl, rfl⟩⟩
    | enter g => exact .inr ⟨_, _, rfl, rfl, by simp [hw₁, hw₂], .inl ⟨rfl, rfl, by simp⟩⟩
  · intro s₁ s₂ f hf₁ hf₂ hh₁ hh₂ hr₁ hr₂ hstage
    obtain ⟨g, hserve⟩ := serve_eq_of_not_answered hstage
    rw [step_of_inFlight hr₁ hh₁ hf₁, step_of_inFlight hr₂ hh₂ hf₂, hserve s₁, hserve s₂]
    exact ⟨_, _, rfl, rfl, rfl, rfl, rfl⟩

end Sys2Proof.Machine
end

section
/-! PROOFS about the encoding (spec/30_encoding.md): the reserved opcodes (R44), the ignored fields (R45) and the
pseudo-instructions (R48). -/

namespace Sys2Proof

open Sys2Proof.Machine

/-! ### The opcode map and the decoder (R43, R46) -/

@[simp] theorem Mnemonic.ofOpcode_opcode (m : Mnemonic) : Mnemonic.ofOpcode m.opcode = some m := by
  cases m <;> rfl

/-- Assigned opcodes lie from 0x01 to 0x09, so a value outside that range equals none of them. -/
theorem Mnemonic.ofOpcode_of_reserved {op : Byte} (h : op = 0x00#8 ∨ 0x0A#8 ≤ op) :
    Mnemonic.ofOpcode op = none := by
  have hne : ∀ c : Byte, c ≠ 0x00#8 → c < 0x0A#8 → op ≠ c := by
    rintro c hc hlt rfl
    exact h.elim hc (BitVec.not_le.mpr hlt)
  simp [Mnemonic.ofOpcode, hne]

theorem decode_of_ofOpcode_eq_some {w : CommandWord} {m : Mnemonic} (h : Mnemonic.ofOpcode (opOf w) = some m) :
    decode w = .command (m.command (aOf w) (bOf w)) := by
  simp [decode, h]

theorem decode_of_ofOpcode_eq_none {w : CommandWord} (h : Mnemonic.ofOpcode (opOf w) = none) :
    decode w = .illegal (.reservedOpcode (opOf w)) := by
  simp [decode, h]

theorem decode_commandWord_opcode (m : Mnemonic) (a b : Value) :
    decode (commandWord m.opcode a b) = .command (m.command a b) := by
  rw [decode_of_ofOpcode_eq_some (m := m) (by simp), aOf_commandWord, bOf_commandWord]

theorem decode_commandWord_of_reserved {op : Byte} (a b : Value) (h : op = 0x00#8 ∨ 0x0A#8 ≤ op) :
    decode (commandWord op a b) = .illegal (.reservedOpcode op) := by
  rw [decode_of_ofOpcode_eq_none (by rw [opOf_commandWord, Mnemonic.ofOpcode_of_reserved h]), opOf_commandWord]

end Sys2Proof

namespace Sys2Proof.Machine

/-! ### Reserved opcodes (R44) -/

/-- A ready unit presented with a word the decoder refuses takes Fatal(ILLEGAL_CMD) in that instant (R44, R83). -/
theorem step_of_accepts_illegal {s : State} {w : CommandWord} {e : DecodeError} (h : s.accepts w)
    (hd : decode w = .illegal e) : step s = .next (s.raiseFatal .illegalCmd (opOf w)).tick := by
  have ⟨_, _, hw⟩ := h
  rw [step_of_accepts h, State.accept, hw, hd, endInstant_next]

/-- Settles O9: a reserved `op` has no mnemonic, so the decoder refuses the word and the unit takes the fatal; the
all-zero word has the reserved `op` 0x00; a legal `op` is that of its mnemonic. -/
theorem reservedOpcodesAreIllegal : Obligations.ReservedOpcodesAreIllegal := by
  refine ⟨fun s op a b hop hacc => ?_, ?_, decode_commandWord_opcode⟩
  · have hdec := decode_commandWord_of_reserved a b hop
    have hstep := step_of_accepts_illegal hacc hdec
    rw [opOf_commandWord] at hstep
    exact ⟨hdec, hstep⟩
  · have hop : opOf 0#264 = 0x00#8 := BitVec.extractLsb'_zero
    have hnone : Mnemonic.ofOpcode (opOf 0#264) = none := Mnemonic.ofOpcode_of_reserved (.inl hop)
    rw [decode_of_ofOpcode_eq_none hnone, hop]

/-! ### Ignored fields (R45) -/

/-- Settles O10: of a form W word the command keeps the low 32 bits of `a` alone, of a form V word `a` alone. -/
theorem ignoredFieldsDoNotMatter : Obligations.IgnoredFieldsDoNotMatter := by
  have hclz (a b : Value) : decode (commandWord 0x01#8 a b) = .command (.clz32 (wordOperand a)) :=
    decode_commandWord_opcode .clz32 a b
  have hmsb (a b : Value) : decode (commandWord 0x02#8 a b) = .command (.msb128 a) :=
    decode_commandWord_opcode .msb128 a b
  refine ⟨fun a a' b b' ha => ⟨?_, hclz a b⟩, fun a b b' => ⟨?_, hmsb a b⟩, fun x => rfl, fun a => rfl⟩
  · rw [hclz a b, hclz a' b', ha]
  · rw [hmsb a b, hmsb a b']

/-! ### Pseudo-instructions (R48) -/

/-- The two-limb subtractor is subtraction modulo 2^128: the borrow that leaves the low halves enters the high ones. -/
theorem sub128_eq (a b : Value) : sub128 a b = a - b := by
  let l := sub64 (low a) (low b) false
  let h := sub64 (high a) (high b) l.2
  have hlow : (l.1.toNat : Int) - l.2.toNat * 2 ^ 64 = (low a).toNat - (low b).toNat :=
    (sub64_spec (low a) (low b) false).trans (sub_zero _)
  have hhigh : (h.1.toNat : Int) - h.2.toNat * 2 ^ 64 = (high a).toNat - (high b).toNat - l.2.toNat :=
    sub64_spec (high a) (high b) l.2
  have hresult : (sub128 a b).toNat = h.1.toNat * 2 ^ 64 + l.1.toNat := toNat_mk h.1 l.1
  have ha := toNat_eq_halves a
  have hb := toNat_eq_halves b
  apply BitVec.eq_of_toNat_eq
  rw [BitVec.toNat_sub]
  omega

theorem sub128_zero_left (a : Value) : sub128 0#128 a = BitVec.ofInt 128 (-a.toInt) := by
  rw [sub128_eq, BitVec.zero_sub, BitVec.ofInt_neg, BitVec.ofInt_toInt]

theorem answers_sub (a b : Value) : Answers (.sub a b) (sub128 a b) 0#128 := fun _ => rfl

theorem exec_divmod_zero (a : Value) (s : State) :
    exec (.divmod a 0#128) s = .next (s.raiseFatal .divZero Mnemonic.divmod.opcode) := by
  simp [exec, execDivmod]

theorem isFatal_divmod_zero (a : Value) : IsFatal (.divmod a 0#128) .divZero Mnemonic.divmod.opcode :=
  exec_divmod_zero a

/-- Settles O12: the expansions and the results used are those of the assembler's table; NEG is a subtraction from zero,
and the command DIV and MOD share tests its divisor first. -/
theorem pseudoInstructionsExpand : Obligations.PseudoInstructionsExpand := by
  intro a b
  have hneg : Answers (.sub 0#128 a) (BitVec.ofInt 128 (-a.toInt)) 0#128 := sub128_zero_left a ▸ answers_sub 0#128 a
  exact ⟨rfl, hneg, rfl, rfl, rfl, isFatal_divmod_zero a, fun r => ⟨rfl, rfl, rfl⟩⟩

end Sys2Proof.Machine
end

section
/-! PROOFS about the bit scans (spec/41_bitscan.md): the count of CLZ32 (R50) and the index of MSB128 (R51), both read
off the highest set bit of the operand. -/

namespace Sys2Proof.Machine

/-! ### The highest set bit of a pattern -/

/-- Bit `p` of `x` is set and no bit above it is. -/
def IsHighestSetBit {n : Nat} (x : BitVec n) (p : Nat) : Prop :=
  x.getLsbD p = true ∧ ∀ j : Nat, p < j → x.getLsbD j = false

theorem IsHighestSetBit.lt {n p : Nat} {x : BitVec n} (h : IsHighestSetBit x p) : p < n :=
  BitVec.lt_of_getLsbD h.1

theorem IsHighestSetBit.unique {n p q : Nat} {x : BitVec n} (hp : IsHighestSetBit x p) (hq : IsHighestSetBit x q) :
    p = q := by
  rcases Nat.lt_trichotomy p q with hlt | heq | hgt
  · exact absurd hq.1 (by simp [hp.2 q hlt])
  · exact heq
  · exact absurd hp.1 (by simp [hq.2 p hgt])

theorem exists_isHighestSetBit {n : Nat} {x : BitVec n} (hx : x ≠ 0#n) : ∃ p : Nat, IsHighestSetBit x p := by
  have hnat : x.toNat ≠ 0 := fun h0 => hx (BitVec.eq_of_toNat_eq (by simpa using h0))
  exact Nat.exists_most_significant_bit hnat

/-- A negative value has its sign bit set, and no bit lies above that. -/
theorem isHighestSetBit_127_of_neg {a : Value} (ha : a.toInt < 0) : IsHighestSetBit a 127 :=
  ⟨(toInt_neg_iff_signBit a).mp ha, fun j hj => BitVec.getLsbD_of_ge a j hj⟩

theorem isHighestSetBit_ofNat_two_pow {n k : Nat} (hk : k < n) : IsHighestSetBit (BitVec.ofNat n (2 ^ k)) k := by
  constructor
  · rw [BitVec.getLsbD_ofNat, Nat.testBit_two_pow_self]
    simp [hk]
  · intro j hj
    rw [BitVec.getLsbD_ofNat, Nat.testBit_two_pow_of_ne hj.ne, Bool.and_false]

/-! ### CLZ32 (R50) -/

/-- A right shift leaves zero exactly when it drops the highest set bit. -/
theorem ushiftRight_eq_zero_iff {n p : Nat} {x : BitVec n} (h : IsHighestSetBit x p) (j : Nat) :
    x >>> j = 0#n ↔ p < j := by
  obtain ⟨hp, habove⟩ := h
  constructor
  · intro hzero
    by_contra hjp
    have hbit : (x >>> j).getLsbD (p - j) = true := by
      rw [BitVec.getLsbD_ushiftRight, Nat.add_sub_cancel' (Nat.le_of_not_lt hjp), hp]
    simp [hzero] at hbit
  · intro hpj
    refine BitVec.eq_of_getLsbD_eq fun i _ => ?_
    rw [BitVec.getLsbD_ushiftRight, habove (j + i) (by omega), BitVec.getLsbD_zero]

theorem countP_range_lt (p n : Nat) : (List.range n).countP (fun j => decide (p < j)) = n - (p + 1) := by
  induction n with
  | zero => simp
  | succ n ih =>
    rw [List.range_succ, List.countP_append, ih, List.countP_singleton]
    by_cases h : p < n
    · simp only [h, decide_true, if_true]; omega
    · simp only [h, decide_false, Bool.false_eq_true, if_false]; omega

theorem clz32_of_isHighestSetBit {x : Limb} {p : Nat} (h : IsHighestSetBit x p) : clz32 x = 31 - p := by
  have hcount : clz32 x = (List.range 32).countP fun j => decide (p < j) :=
    List.countP_congr fun j _ => by simp [ushiftRight_eq_zero_iff h]
  rw [hcount, countP_range_lt]
  omega

theorem clz32_zero : clz32 0#32 = 32 := by decide

theorem clz32_le (x : Limb) : clz32 x ≤ 32 := by
  simpa [clz32] using List.countP_le_length (p := fun j => x >>> j == 0#32) (l := List.range 32)

theorem answers_clz32 (x : Limb) : Answers (.clz32 x) (BitVec.ofNat 128 (clz32 x)) 0#128 := by
  intro s
  have hfits : (BitVec.ofNat 6 (clz32 x)).setWidth 128 = BitVec.ofNat 128 (clz32 x) :=
    BitVec.setWidth_ofNat_of_le_of_lt (by decide) (Nat.lt_of_le_of_lt (clz32_le x) (by decide))
  rw [← hfits]
  rfl

theorem decode_of_opOf_clz32 {w : CommandWord} (h : opOf w = 0x01#8) :
    decode w = .command (.clz32 (wordOperand (aOf w))) :=
  decode_of_ofOpcode_eq_some (m := .clz32) (by rw [h]; rfl)

/-- Settles O13: for a nonzero word the shifts that leave zero are those beyond its highest set bit, and there are
`31 - p` of them below 32. -/
theorem clz32CountsLeadingZeros : Obligations.Clz32CountsLeadingZeros := by
  refine ⟨fun w hw => decode_of_opOf_clz32 hw, fun x => ⟨clz32 x, clz32_le x, answers_clz32 x, ?_, ?_⟩,
    answers_clz32 1#32, answers_clz32 0x80000000#32, answers_clz32 0xFFFFFFFF#32, answers_clz32 0x00010000#32,
    decode_of_opOf_clz32 (by decide), decode_of_opOf_clz32 (by decide)⟩
  · rintro rfl
    exact clz32_zero
  · intro p _ hset habove
    exact clz32_of_isHighestSetBit ⟨hset, habove⟩

/-! ### MSB128 (R51) -/

/-- The downward search finds the highest set bit from any start above it. -/
theorem highestSetBit_of_isHighestSetBit {a : Value} {m : Nat} (h : IsHighestSetBit a m) :
    ∀ {p : Nat}, m < p → highestSetBit a p = m := by
  obtain ⟨hm, habove⟩ := h
  intro p hmp
  induction p with
  | zero => omega
  | succ p ih =>
    rcases Nat.lt_succ_iff_lt_or_eq.mp hmp with hlt | rfl
    · rw [highestSetBit, habove p hlt, if_neg Bool.false_ne_true, ih hlt]
    · rw [highestSetBit, if_pos hm]

theorem msb128_of_isHighestSetBit {a : Value} {m : Nat} (h : IsHighestSetBit a m) : msb128 a = m :=
  highestSetBit_of_isHighestSetBit h h.lt

theorem answers_msb128 {a : Value} {m : Nat} (h : IsHighestSetBit a m) :
    Answers (.msb128 a) (BitVec.ofNat 128 m) 0#128 := by
  intro s
  have hne : a ≠ 0#128 := by
    rintro rfl
    simpa using h.1
  have hfits : (BitVec.ofNat 7 m).setWidth 128 = BitVec.ofNat 128 m :=
    BitVec.setWidth_ofNat_of_le_of_lt (by decide) h.lt
  rw [exec, execMsb128, if_neg hne, msb128_of_isHighestSetBit h, hfits]
  rfl

theorem isFatal_msb128_zero : IsFatal (.msb128 0#128) .scanZero Mnemonic.msb128.opcode := fun _ => rfl

theorem isHighestSetBit_int128Max : IsHighestSetBit int128Max 126 := by
  refine ⟨by decide, fun j hj => ?_⟩
  rcases Nat.lt_or_ge j 128 with hlt | hge
  · obtain rfl : j = 127 := by omega
    decide
  · exact BitVec.getLsbD_of_ge int128Max j hge

theorem decode_of_opOf_msb128 {w : CommandWord} (h : opOf w = 0x02#8) : decode w = .command (.msb128 (aOf w)) :=
  decode_of_ofOpcode_eq_some (m := .msb128) (by rw [h]; rfl)

/-- Settles O14: a nonzero pattern has a highest set bit, which is what the search finds; zero is tested first. -/
theorem msb128FindsTheHighestSetBit : Obligations.Msb128FindsTheHighestSetBit := by
  refine ⟨fun w hw => decode_of_opOf_msb128 hw, fun a ha => ?_, isFatal_msb128_zero,
    answers_msb128 (isHighestSetBit_ofNat_two_pow (k := 0) (by decide)), fun k hk => ?_,
    answers_msb128 (isHighestSetBit_127_of_neg (by decide)), answers_msb128 (isHighestSetBit_127_of_neg (by decide)),
    answers_msb128 isHighestSetBit_int128Max, decode_of_opOf_msb128 (by decide)⟩
  · obtain ⟨m, hm⟩ := exists_isHighestSetBit ha
    have ⟨hset, habove⟩ := hm
    refine ⟨m, Nat.le_of_lt_succ hm.lt, answers_msb128 hm, hset, habove, fun hneg => ?_⟩
    exact hm.unique (isHighestSetBit_127_of_neg hneg)
  · have hlt : k < 128 := (by decide : ∀ k ∈ [32, 63, 64, 96, 100], k < 128) k hk
    exact answers_msb128 (isHighestSetBit_ofNat_two_pow hlt)

end Sys2Proof.Machine
end


section
/-! PROOFS about ADD and SUB (spec/42_add_subtract.md): the result laws (R55, R56) and the silence of overflow (R58). -/

namespace Sys2Proof.Machine

/-! ### The datapaths are the arithmetic modulo 2^128 (R55, R56) -/

/-- The two-limb adder is addition modulo 2^128: the carry that leaves the low halves enters the high ones. -/
theorem add128_eq (a b : Value) : add128 a b = a + b := by
  let l := add64 (low a) (low b) false
  let h := add64 (high a) (high b) l.2
  have hlow : l.2.toNat * 2 ^ 64 + l.1.toNat = (low a).toNat + (low b).toNat := add64_spec (low a) (low b) false
  have hhigh : h.2.toNat * 2 ^ 64 + h.1.toNat = (high a).toNat + (high b).toNat + l.2.toNat :=
    add64_spec (high a) (high b) l.2
  have hresult : (add128 a b).toNat = h.1.toNat * 2 ^ 64 + l.1.toNat := toNat_mk h.1 l.1
  have ha := toNat_eq_halves a
  have hb := toNat_eq_halves b
  apply BitVec.eq_of_toNat_eq
  rw [BitVec.toNat_add]
  omega

theorem add128_of_add64 {a b : Value} {lo hi : Half} {c c2 : Bool} (hlo : add64 (low a) (low b) false = (lo, c))
    (hhi : add64 (high a) (high b) c = (hi, c2)) : add128 a b = mk hi lo := by
  simp [add128, hlo, hhi]

theorem sub128_of_sub64 {a b : Value} {lo hi : Half} {br br2 : Bool} (hlo : sub64 (low a) (low b) false = (lo, br))
    (hhi : sub64 (high a) (high b) br = (hi, br2)) : sub128 a b = mk hi lo := by
  simp [sub128, hlo, hhi]

theorem toNat_add128 (a b : Value) : (add128 a b).toNat = (a.toNat + b.toNat) % 2 ^ 128 := by
  rw [add128_eq, BitVec.toNat_add]

theorem toInt_add128 (a b : Value) : (add128 a b).toInt = (a.toInt + b.toInt).bmod (2 ^ 128) := by
  rw [add128_eq, BitVec.toInt_add]

theorem toNat_sub128 (a b : Value) : ((sub128 a b).toNat : Int) = ((a.toNat : Int) - b.toNat) % 2 ^ 128 := by
  have := b.isLt
  rw [sub128_eq, BitVec.toNat_sub]
  omega

theorem toInt_sub128 (a b : Value) : (sub128 a b).toInt = (a.toInt - b.toInt).bmod (2 ^ 128) := by
  rw [sub128_eq, BitVec.toInt_sub]

/-! ### ADD and SUB are answered in every state -/

theorem answers_add (a b : Value) : Answers (.add a b) (add128 a b) 0#128 := fun _ => rfl

theorem answers_add_of_eq {a b y : Value} (h : a + b = y) : Answers (.add a b) y 0#128 := by
  rw [← h, ← add128_eq]
  exact answers_add a b

theorem answers_sub_of_eq {a b y : Value} (h : a - b = y) : Answers (.sub a b) y 0#128 := by
  rw [← h, ← sub128_eq]
  exact answers_sub a b

theorem decode_of_opOf_add {w : CommandWord} (h : opOf w = 0x03#8) : decode w = .command (.add (aOf w) (bOf w)) :=
  decode_of_ofOpcode_eq_some (m := .add) (by rw [h]; rfl)

theorem decode_of_opOf_sub {w : CommandWord} (h : opOf w = 0x04#8) : decode w = .command (.sub (aOf w) (bOf w)) :=
  decode_of_ofOpcode_eq_some (m := .sub) (by rw [h]; rfl)

/-- Settles O17: the two-limb adder is addition modulo 2^128, in both readings of the pattern. -/
theorem addIsTheSumModuloTwoPow128 : Obligations.AddIsTheSumModuloTwoPow128 := by
  refine ⟨fun w hw => decode_of_opOf_add hw, fun a b lo hi c c2 hlo hhi => ?_,
    fun a b => ⟨add128 a b, answers_add a b, toNat_add128 a b, toInt_add128 a b⟩,
    fun a => answers_add_of_eq (BitVec.add_zero a), answers_add_of_eq (by decide), answers_add_of_eq (by decide),
    answers_add_of_eq (by decide), answers_add_of_eq (by decide), by decide +kernel⟩
  rw [← add128_of_add64 hlo hhi]
  exact answers_add a b

/-- Settles O18: the two-limb subtractor is subtraction modulo 2^128, in both readings of the pattern. -/
theorem subIsTheDifferenceModuloTwoPow128 : Obligations.SubIsTheDifferenceModuloTwoPow128 := by
  refine ⟨fun w hw => decode_of_opOf_sub hw, fun a b lo hi br br2 hlo hhi => ?_,
    fun a b => ⟨sub128 a b, answers_sub a b, toNat_sub128 a b, toInt_sub128 a b⟩,
    fun a => ⟨answers_sub_of_eq (BitVec.sub_zero a), answers_sub_of_eq (BitVec.sub_self a)⟩,
    answers_sub_of_eq (by decide), answers_sub_of_eq (by decide), answers_sub_of_eq (by decide),
    answers_sub_of_eq (by decide), by decide +kernel⟩
  rw [← sub128_of_sub64 hlo hhi]
  exact answers_sub a b

/-! ### Overflow (R58)

`x` is the exact result of an operation and `y` the value it was wrapped into. -/

theorem bmod_of_mem_signedRange {x : Int} (hlo : -(2 ^ 127) ≤ x) (hhi : x ≤ 2 ^ 127 - 1) : x.bmod (2 ^ 128) = x :=
  Int.bmod_eq_of_le (by omega) (by omega)

theorem mem_signedRange_iff_toInt_eq {x : Int} {y : Value} (hy : y.toInt = x.bmod (2 ^ 128)) :
    -(2 ^ 127) ≤ x ∧ x ≤ 2 ^ 127 - 1 ↔ y.toInt = x := by
  constructor
  · rintro ⟨hlo, hhi⟩
    rw [hy, bmod_of_mem_signedRange hlo hhi]
  · rintro rfl
    exact ⟨y.le_toInt, Int.le_sub_one_of_lt y.toInt_lt⟩

theorem toInt_of_above_signedRange {x : Int} {y : Value} (hy : y.toInt = x.bmod (2 ^ 128)) (habove : 2 ^ 127 - 1 < x)
    (hx : x < 2 ^ 128) : y.toInt = x - 2 ^ 128 := by
  have hwrap : (x - 2 ^ 128).bmod (2 ^ 128) = x.bmod (2 ^ 128) := Int.sub_bmod_right x (2 ^ 128)
  rw [hy, ← hwrap, bmod_of_mem_signedRange (by omega) (by omega)]

theorem toInt_of_below_signedRange {x : Int} {y : Value} (hy : y.toInt = x.bmod (2 ^ 128)) (hbelow : x < -(2 ^ 127))
    (hx : -(2 ^ 128) ≤ x) : y.toInt = x + 2 ^ 128 := by
  have hwrap : (x + 2 ^ 128).bmod (2 ^ 128) = x.bmod (2 ^ 128) := Int.add_bmod_right x (2 ^ 128)
  rw [hy, ← hwrap, bmod_of_mem_signedRange (by omega) (by omega)]

/-- Settles O21: both results are the exact one wrapped, and the exact one lies less than 2^128 outside the signed
range, so at most one wrap of 2^128 is due. -/
theorem overflowWrapsSilently : Obligations.OverflowWrapsSilently := by
  intro a b
  have hadd := toInt_add128 a b
  have hsub := toInt_sub128 a b
  have halo : -(2 ^ 127) ≤ a.toInt := a.le_toInt
  have hahi : a.toInt < 2 ^ 127 := a.toInt_lt
  have hblo : -(2 ^ 127) ≤ b.toInt := b.le_toInt
  have hbhi : b.toInt < 2 ^ 127 := b.toInt_lt
  refine ⟨answers_add a b, answers_sub a b, mod_cast toNat_add128 a b, toNat_sub128 a b,
    mem_signedRange_iff_toInt_eq hadd, fun h => toInt_of_above_signedRange hadd h (by omega),
    fun h => toInt_of_below_signedRange hadd h (by omega),
    mem_signedRange_iff_toInt_eq hsub, fun h => toInt_of_above_signedRange hsub h (by omega),
    fun h => toInt_of_below_signedRange hsub h (by omega)⟩

end Sys2Proof.Machine
end

section
/-! PROOFS about MUL (spec/43_multiply.md): the result law (R60), in both readings of the patterns. -/

namespace Sys2Proof.Machine

/-! ### The multiplier is multiplication modulo 2^128 (R60) -/

theorem mul128_eq (a b : Value) : mul128 a b = a * b := by
  rw [mul128, BitVec.ofNat_mul, BitVec.ofNat_toNat, BitVec.ofNat_toNat, BitVec.setWidth_eq, BitVec.setWidth_eq]

theorem toNat_mul128 (a b : Value) : (mul128 a b).toNat = a.toNat * b.toNat % 2 ^ 128 := by
  rw [mul128_eq, BitVec.toNat_mul]

/-- The signed product leaves the same low 128 bits as the unsigned one. -/
theorem toNat_mul128_eq_toInt_emod (a b : Value) :
    ((mul128 a b).toNat : Int) = a.toInt * b.toInt % 2 ^ 128 := by
  rw [toNat_eq_toInt_emod, mul128_eq, BitVec.toInt_mul]
  exact Int.bmod_emod

theorem mul128_comm (a b : Value) : mul128 a b = mul128 b a := by
  rw [mul128_eq, mul128_eq, BitVec.mul_comm]

/-- Multiplying by -1 is subtracting from zero. -/
theorem neg_one_mul_eq_sub128 (a : Value) : BitVec.ofInt 128 (-1) * a = sub128 0#128 a := by
  have hneg : BitVec.ofInt 128 (-1) = -1#128 := by decide
  rw [hneg, BitVec.neg_mul, BitVec.one_mul, sub128_eq, BitVec.zero_sub]

/-! ### MUL is answered in every state -/

theorem answers_mul (a b : Value) : Answers (.mul a b) (mul128 a b) 0#128 := fun _ => rfl

theorem answers_mul_of_eq {a b y : Value} (h : a * b = y) : Answers (.mul a b) y 0#128 := by
  rw [← h, ← mul128_eq]
  exact answers_mul a b

theorem decode_of_opOf_mul {w : CommandWord} (h : opOf w = 0x05#8) : decode w = .command (.mul (aOf w) (bOf w)) :=
  decode_of_ofOpcode_eq_some (m := .mul) (by rw [h]; rfl)

/-- Settles O23: the multiplier is multiplication modulo 2^128, in both readings of the patterns, so its laws give the
clauses about every operand; the remaining corner cases are closed products. -/
theorem mulIsTheLowProduct : Obligations.MulIsTheLowProduct := by
  refine ⟨fun w hw => decode_of_opOf_mul hw, fun a b => ?_, fun a => ?_, answers_mul_of_eq (by decide),
    answers_mul_of_eq (by decide), answers_mul_of_eq (by decide), answers_mul_of_eq (by decide),
    answers_mul_of_eq (by decide), answers_mul_of_eq (by decide), answers_mul_of_eq (by decide), by decide,
    by decide +kernel⟩
  · have hswap : Answers (.mul b a) (mul128 a b) 0#128 := mul128_comm b a ▸ answers_mul b a
    exact ⟨mul128 a b, answers_mul a b, rfl, toNat_mul128 a b, toNat_mul128_eq_toInt_emod a b, hswap⟩
  · exact ⟨answers_mul_of_eq (BitVec.mul_one a), answers_mul_of_eq BitVec.mul_zero,
      answers_mul_of_eq (neg_one_mul_eq_sub128 a)⟩

end Sys2Proof.Machine
end

section
/-! PROOFS about SLL, SRL and SRA (spec/44_shift.md): the units are the shifts of the 128-bit pattern (R65, R66, R67),
and an amount is defined exactly from 0 to 127 (R68). -/

namespace Sys2Proof.Machine

/-! ### The halves of a shifted value

A half of a shifted value is a shifted half, or 64 bits of the value that span both halves. -/

theorem halves_of_eq_mk {x : Value} {h l : Half} (hx : x = mk h l) : high x = h ∧ low x = l := by
  rw [hx]
  exact ⟨high_mk h l, low_mk h l⟩

theorem getElem_high (x : Value) {i : Nat} (hi : i < 64) : (high x)[i] = x[64 + i] := by
  rw [high, BitVec.getElem_extractLsb', BitVec.getLsbD_eq_getElem]

theorem getElem_low (x : Value) {i : Nat} (hi : i < 64) : (low x)[i] = x[i] := by
  rw [low, BitVec.getElem_extractLsb', BitVec.getLsbD_eq_getElem (by omega)]
  simp only [Nat.zero_add]

theorem msb_high (x : Value) : (high x).msb = x.msb := by
  simp [BitVec.msb_eq_getMsbD_zero, BitVec.getMsbD, getElem_high]

/-- The 64 bits from bit `j` upward are joined from the upper bits of the low half and the lower bits of the high. -/
theorem low_ushiftRight_or_high_shiftLeft (a : Value) {j : Nat} (hj : j ≤ 64) :
    low a >>> j ||| high a <<< (64 - j) = a.extractLsb' j 64 := by
  ext i hi
  grind [getElem_high, getElem_low]

theorem extractLsb'_of_64_le (a : Value) {k : Nat} (hk : 64 ≤ k) : a.extractLsb' k 64 = high a >>> (k - 64) := by
  ext i hi
  grind [getElem_high]

theorem high_shiftLeft_of_le_64 (a : Value) {k : Nat} (hk : k ≤ 64) :
    high (a <<< k) = a.extractLsb' (64 - k) 64 := by
  ext i hi
  grind [getElem_high]

theorem high_shiftLeft_of_64_le (a : Value) {k : Nat} (hk : 64 ≤ k) : high (a <<< k) = low a <<< (k - 64) := by
  ext i hi
  grind [getElem_high, getElem_low]

theorem low_shiftLeft (a : Value) (k : Nat) : low (a <<< k) = low a <<< k := by
  ext i hi
  grind [getElem_low]

theorem high_ushiftRight (a : Value) (k : Nat) : high (a >>> k) = high a >>> k := by
  ext i hi
  grind [getElem_high]

theorem low_ushiftRight (a : Value) (k : Nat) : low (a >>> k) = a.extractLsb' k 64 := by
  ext i hi
  grind [getElem_low]

theorem high_sshiftRight (a : Value) (k : Nat) : high (a.sshiftRight k) = (high a).sshiftRight k := by
  ext i hi
  grind [getElem_high, msb_high]

theorem low_sshiftRight_of_le_64 (a : Value) {k : Nat} (hk : k ≤ 64) :
    low (a.sshiftRight k) = a.extractLsb' k 64 := by
  ext i hi
  grind [getElem_low]

theorem low_sshiftRight_of_64_le (a : Value) {k : Nat} (hk : 64 ≤ k) :
    low (a.sshiftRight k) = (high a).sshiftRight (k - 64) := by
  ext i hi
  grind [getElem_high, getElem_low, msb_high]

/-- A shift by 63 or more leaves copies of the sign bit alone. -/
theorem sshiftRight_of_63_le (p : Half) {k : Nat} (hk : 63 ≤ k) : p.sshiftRight k = p.sshiftRight 63 := by
  ext i hi
  grind

/-! ### The 64-bit shifters (R69) -/

theorem shl64_eq (p : Half) (k : Fin 64) : shl64 p k = p <<< k.val := by
  apply BitVec.eq_of_toNat_eq
  rw [toNat_shl64, BitVec.toNat_shiftLeft, Nat.shiftLeft_eq]

theorem shr64_eq (p : Half) (k : Fin 64) : shr64 p k = p >>> k.val := by
  apply BitVec.eq_of_toNat_eq
  rw [toNat_shr64, BitVec.toNat_ushiftRight, Nat.shiftRight_eq_div_pow]

theorem sar64_eq (p : Half) (k : Fin 64) : sar64 p k = p.sshiftRight k.val := by
  rw [sar64, BitVec.sshiftRight, Int.shiftRight_eq_div_pow, Nat.cast_pow, Nat.cast_ofNat]

/-! ### The three cases of each unit -/

theorem amount_cases (k : Fin 128) : k.val = 0 ∨ (1 ≤ k.val ∧ k.val ≤ 63) ∨ 64 ≤ k.val := by omega

section Cases

variable {k : Fin 128} (a : Value)

theorem sll128_of_zero (h0 : k.val = 0) : sll128 a k = mk (high a) (low a) := dif_pos h0

theorem srl128_of_zero (h0 : k.val = 0) : srl128 a k = mk (high a) (low a) := dif_pos h0

theorem sra128_of_zero (h0 : k.val = 0) : sra128 a k = mk (high a) (low a) := dif_pos h0

theorem sll128_of_le_63 (h1 : 1 ≤ k.val) (h63 : k.val ≤ 63) :
    sll128 a k = mk (high a <<< k.val ||| low a >>> (64 - k.val)) (low a <<< k.val) := by
  rw [sll128, dif_neg (Nat.ne_of_gt h1), dif_pos h63, shl64_eq, shr64_eq, shl64_eq]

theorem srl128_of_le_63 (h1 : 1 ≤ k.val) (h63 : k.val ≤ 63) :
    srl128 a k = mk (high a >>> k.val) (low a >>> k.val ||| high a <<< (64 - k.val)) := by
  rw [srl128, dif_neg (Nat.ne_of_gt h1), dif_pos h63, shr64_eq, shr64_eq, shl64_eq]

theorem sra128_of_le_63 (h1 : 1 ≤ k.val) (h63 : k.val ≤ 63) :
    sra128 a k = mk ((high a).sshiftRight k.val) (low a >>> k.val ||| high a <<< (64 - k.val)) := by
  rw [sra128, dif_neg (Nat.ne_of_gt h1), dif_pos h63, sar64_eq, shr64_eq, shl64_eq]

theorem sll128_of_64_le (h64 : 64 ≤ k.val) : sll128 a k = mk (low a <<< (k.val - 64)) 0#64 := by
  rw [sll128, dif_neg (by omega), dif_neg (by omega), shl64_eq]

theorem srl128_of_64_le (h64 : 64 ≤ k.val) : srl128 a k = mk 0#64 (high a >>> (k.val - 64)) := by
  rw [srl128, dif_neg (by omega), dif_neg (by omega), shr64_eq]

theorem sra128_of_64_le (h64 : 64 ≤ k.val) :
    sra128 a k = mk ((high a).sshiftRight 63) ((high a).sshiftRight (k.val - 64)) := by
  rw [sra128, dif_neg (by omega), dif_neg (by omega), sar64_eq, sar64_eq]
  rfl

end Cases

/-! ### Each unit is the shift of the 128-bit pattern (R65, R66, R67) -/

theorem sll128_eq (a : Value) (k : Fin 128) : sll128 a k = a <<< k.val := by
  rw [← mk_high_low (a <<< k.val), low_shiftLeft]
  rcases amount_cases k with h0 | ⟨h1, h63⟩ | h64
  · rw [sll128_of_zero a h0, h0, BitVec.shiftLeft_zero, BitVec.shiftLeft_zero]
  · have hjoin := low_ushiftRight_or_high_shiftLeft a (Nat.sub_le 64 k.val)
    rw [Nat.sub_sub_self (by omega), BitVec.or_comm] at hjoin
    rw [sll128_of_le_63 a h1 h63, hjoin, high_shiftLeft_of_le_64 a (by omega)]
  · rw [sll128_of_64_le a h64, high_shiftLeft_of_64_le a h64, BitVec.shiftLeft_eq_zero h64]

theorem srl128_eq (a : Value) (k : Fin 128) : srl128 a k = a >>> k.val := by
  rw [← mk_high_low (a >>> k.val), high_ushiftRight, low_ushiftRight]
  rcases amount_cases k with h0 | ⟨h1, h63⟩ | h64
  · rw [srl128_of_zero a h0, h0, BitVec.ushiftRight_zero, low]
  · rw [srl128_of_le_63 a h1 h63, low_ushiftRight_or_high_shiftLeft a (by omega)]
  · rw [srl128_of_64_le a h64, extractLsb'_of_64_le a h64, BitVec.ushiftRight_eq_zero h64]

theorem sra128_eq (a : Value) (k : Fin 128) : sra128 a k = a.sshiftRight k.val := by
  rw [← mk_high_low (a.sshiftRight k.val), high_sshiftRight]
  rcases amount_cases k with h0 | ⟨h1, h63⟩ | h64
  · rw [sra128_of_zero a h0, h0, BitVec.sshiftRight_zero, BitVec.sshiftRight_zero]
  · rw [sra128_of_le_63 a h1 h63, low_ushiftRight_or_high_shiftLeft a (by omega),
      low_sshiftRight_of_le_64 a (by omega)]
  · rw [sra128_of_64_le a h64, low_sshiftRight_of_64_le a h64, sshiftRight_of_63_le (high a) (by omega : 63 ≤ k.val)]

theorem toNat_sll128 (a : Value) (k : Fin 128) : (sll128 a k).toNat = a.toNat * 2 ^ k.val % 2 ^ 128 := by
  rw [sll128_eq, BitVec.toNat_shiftLeft, Nat.shiftLeft_eq]

theorem toNat_srl128 (a : Value) (k : Fin 128) : (srl128 a k).toNat = a.toNat / 2 ^ k.val := by
  rw [srl128_eq, BitVec.toNat_ushiftRight, Nat.shiftRight_eq_div_pow]

theorem toInt_sra128 (a : Value) (k : Fin 128) : (sra128 a k).toInt = a.toInt / 2 ^ k.val := by
  rw [sra128_eq, BitVec.toInt_sshiftRight, Int.shiftRight_eq_div_pow, Nat.cast_pow, Nat.cast_ofNat]

/-- The `k` highest bits of SRA's result are copies of the sign. -/
theorem getLsbD_sra128_of_lt {k : Fin 128} {j : Nat} (a : Value) (hj : j < k.val) :
    (sra128 a k).getLsbD (127 - j) = a.getLsbD 127 := by
  have hin : ¬128 ≤ 127 - j := by omega
  have hout : ¬k.val + (127 - j) < 128 := by omega
  rw [sra128_eq, BitVec.getLsbD_sshiftRight, if_neg hout, BitVec.msb_eq_getLsbD_last, decide_eq_false hin,
    Bool.not_false, Bool.true_and]

/-! ### The shifts are answered in every state for the amounts 0 to 127, and refused for every other (R68) -/

theorem answers_sll (a : Value) (k : Fin 128) : Answers (.sll a k.val) (sll128 a k) 0#128 :=
  fun s => exec_sll_of_some s (legalAmount_of_fin k)

theorem answers_srl (a : Value) (k : Fin 128) : Answers (.srl a k.val) (srl128 a k) 0#128 :=
  fun s => exec_srl_of_some s (legalAmount_of_fin k)

theorem answers_sra (a : Value) (k : Fin 128) : Answers (.sra a k.val) (sra128 a k) 0#128 :=
  fun s => exec_sra_of_some s (legalAmount_of_fin k)

theorem answers_sll_of_eq {a y : Value} (k : Fin 128) (h : a <<< k.val = y) : Answers (.sll a k.val) y 0#128 := by
  rw [← h, ← sll128_eq]
  exact answers_sll a k

theorem answers_srl_of_eq {a y : Value} (k : Fin 128) (h : a >>> k.val = y) : Answers (.srl a k.val) y 0#128 := by
  rw [← h, ← srl128_eq]
  exact answers_srl a k

theorem answers_sra_of_eq {a y : Value} (k : Fin 128) (h : a.sshiftRight k.val = y) :
    Answers (.sra a k.val) y 0#128 := by
  rw [← h, ← sra128_eq]
  exact answers_sra a k

theorem decode_of_opOf_sll {w : CommandWord} (h : opOf w = 0x06#8) :
    decode w = .command (.sll (aOf w) (bOf w).toInt) :=
  decode_of_ofOpcode_eq_some (m := .sll) (by rw [h]; rfl)

theorem decode_of_opOf_srl {w : CommandWord} (h : opOf w = 0x07#8) :
    decode w = .command (.srl (aOf w) (bOf w).toInt) :=
  decode_of_ofOpcode_eq_some (m := .srl) (by rw [h]; rfl)

theorem decode_of_opOf_sra {w : CommandWord} (h : opOf w = 0x08#8) :
    decode w = .command (.sra (aOf w) (bOf w).toInt) :=
  decode_of_ofOpcode_eq_some (m := .sra) (by rw [h]; rfl)

/-! ### SLL (R65) -/

theorem shiftLeft_64_eq_mk (a : Value) : a <<< 64 = mk (low a) 0#64 := by
  rw [← mk_high_low (a <<< 64), high_shiftLeft_of_64_le a le_rfl, low_shiftLeft, BitVec.shiftLeft_eq_zero le_rfl,
    Nat.sub_self, BitVec.shiftLeft_zero]

theorem shiftLeft_one_eq_add128 (a : Value) : a <<< 1 = add128 a a := by
  apply BitVec.eq_of_toNat_eq
  rw [toNat_add128, BitVec.toNat_shiftLeft, Nat.shiftLeft_eq, pow_one, Nat.mul_two]

theorem shiftLeft_127_eq_ite (a : Value) : a <<< 127 = if a.getLsbD 0 then int128Min else 0#128 := by
  have hbit : a.getLsbD 0 = true ↔ a.toNat % 2 = 1 := by rw [BitVec.getLsbD, Nat.testBit_zero, decide_eq_true_iff]
  have hmin : int128Min.toNat = 2 ^ 127 := by decide
  apply BitVec.eq_of_toNat_eq
  rw [BitVec.toNat_shiftLeft, Nat.shiftLeft_eq]
  split
  · next hset => rw [hbit] at hset; omega
  · next hclear => rw [hbit] at hclear; simp only [BitVec.toNat_zero]; omega

theorem neg_one_shiftLeft (k : Nat) : BitVec.ofInt 128 (-1) <<< k = BitVec.ofInt 128 (-(2 ^ k)) := by
  have hpow : BitVec.twoPow 128 k = BitVec.ofInt 128 (2 ^ k) := by
    apply BitVec.eq_of_toNat_eq
    rw [BitVec.toNat_twoPow, BitVec.toNat_ofInt]
    norm_cast
  rw [BitVec.shiftLeft_eq_mul_twoPow, hpow, ← BitVec.ofInt_mul, neg_one_mul]

/-- Settles O28: the unit is the left shift of the pattern, so it multiplies modulo 2^128, and an amount from 0 to 127
is legal; the unit's three cases are those of the rule. -/
theorem sllShiftsLeftWithZeroFill : Obligations.SllShiftsLeftWithZeroFill := by
  refine ⟨fun w hw => decode_of_opOf_sll hw, fun a k hk => ?_,
    fun a k s hk => exec_sll_of_none s (legalAmount_eq_none.mpr hk),
    fun a => ⟨answers_sll_of_eq 64 (shiftLeft_64_eq_mk a), answers_sll_of_eq 1 (shiftLeft_one_eq_add128 a),
      _, answers_sll_of_eq 127 rfl, shiftLeft_127_eq_ite a⟩,
    answers_sll_of_eq 127 (by decide), fun k hk => answers_sll_of_eq ⟨k, by omega⟩ (neg_one_shiftLeft k),
    by decide +kernel, answers_sll_of_eq 1 (by decide)⟩
  let n : Fin 128 := ⟨k, Nat.lt_succ_of_le hk⟩
  refine ⟨high (sll128 a n), low (sll128 a n), ?_⟩
  rw [mk_high_low]
  exact ⟨answers_sll a n, toNat_sll128 a n, fun h0 => halves_of_eq_mk (sll128_of_zero a h0),
    fun h1 h63 => halves_of_eq_mk (sll128_of_le_63 a h1 h63), fun h64 => halves_of_eq_mk (sll128_of_64_le a h64)⟩

/-! ### SRL (R66) -/

theorem ushiftRight_64_eq_mk (a : Value) : a >>> 64 = mk 0#64 (high a) := by
  rw [← mk_high_low (a >>> 64), high_ushiftRight, BitVec.ushiftRight_eq_zero le_rfl, low_ushiftRight, high]

theorem ushiftRight_127_eq_ite (a : Value) : a >>> 127 = if a.getLsbD 127 then 1#128 else 0#128 := by
  have hbit : a.getLsbD 127 = true ↔ a.toNat / 2 ^ 127 % 2 = 1 := by
    rw [BitVec.getLsbD, Nat.testBit_eq_decide_div_mod_eq, decide_eq_true_iff]
  have := a.isLt
  apply BitVec.eq_of_toNat_eq
  rw [BitVec.toNat_ushiftRight, Nat.shiftRight_eq_div_pow]
  split
  · next hset => rw [hbit] at hset; simp only [BitVec.toNat_ofNat]; omega
  · next hclear => rw [hbit] at hclear; simp only [BitVec.toNat_zero]; omega

theorem srl128_eq_sra128_of_signBit_clear {a : Value} (k : Fin 128) (h : a.getLsbD 127 = false) :
    srl128 a k = sra128 a k := by
  have hmsb : a.msb = false := (BitVec.msb_eq_getLsbD_last a).trans h
  rw [srl128_eq, sra128_eq, BitVec.sshiftRight_eq_of_msb_false hmsb]

/-- Settles O29: the unit is the zero-filling right shift of the pattern, so it is floor division of the unsigned value,
and an amount from 0 to 127 is legal; the unit's three cases are those of the rule. -/
theorem srlShiftsRightWithZeroFill : Obligations.SrlShiftsRightWithZeroFill := by
  refine ⟨fun w hw => decode_of_opOf_srl hw, fun a k hk => ?_,
    fun a k s hk => exec_srl_of_none s (legalAmount_eq_none.mpr hk),
    fun a => ⟨answers_srl_of_eq 64 (ushiftRight_64_eq_mk a), answers_srl_of_eq 127 (ushiftRight_127_eq_ite a)⟩,
    fun a k h => srl128_eq_sra128_of_signBit_clear k h, answers_srl_of_eq 1 (by decide), by decide +kernel,
    answers_srl_of_eq 127 (by decide)⟩
  let n : Fin 128 := ⟨k, Nat.lt_succ_of_le hk⟩
  refine ⟨high (srl128 a n), low (srl128 a n), ?_⟩
  rw [mk_high_low]
  exact ⟨answers_srl a n, toNat_srl128 a n, fun h0 => halves_of_eq_mk (srl128_of_zero a h0),
    fun h1 h63 => halves_of_eq_mk (srl128_of_le_63 a h1 h63), fun h64 => halves_of_eq_mk (srl128_of_64_le a h64)⟩

/-! ### SRA (R67) -/

theorem neg_one_sshiftRight (k : Nat) : (BitVec.ofInt 128 (-1)).sshiftRight k = BitVec.ofInt 128 (-1) := by
  have hnot : ~~~BitVec.ofInt 128 (-1) = 0#128 := by decide
  rw [BitVec.sshiftRight_eq_of_msb_true (by decide), hnot, BitVec.zero_ushiftRight, ← hnot, BitVec.not_not]

theorem sshiftRight_127_eq_ite (a : Value) :
    a.sshiftRight 127 = if 0 ≤ a.toInt then 0#128 else BitVec.ofInt 128 (-1) := by
  have hlo : -(2 ^ 127) ≤ a.toInt := a.le_toInt
  have hhi : a.toInt < 2 ^ 127 := a.toInt_lt
  have hones : (BitVec.ofInt 128 (-1)).toInt = -1 := by decide
  apply BitVec.eq_of_toInt_eq
  rw [BitVec.toInt_sshiftRight, Int.shiftRight_eq_div_pow]
  split
  · next hnonneg => rw [BitVec.toInt_zero]; omega
  · next hneg => rw [hones]; omega

/-- Settles O30: the unit is the sign-filling right shift of the pattern, so it is floor division of the signed value,
and an amount from 0 to 127 is legal; the unit's three cases are those of the rule. -/
theorem sraShiftsRightWithSignFill : Obligations.SraShiftsRightWithSignFill := by
  refine ⟨fun w hw => decode_of_opOf_sra hw, fun a k hk => ?_,
    fun a k s hk => exec_sra_of_none s (legalAmount_eq_none.mpr hk),
    fun k hk => answers_sra_of_eq ⟨k, by omega⟩ (neg_one_sshiftRight k),
    fun a => answers_sra_of_eq 127 (sshiftRight_127_eq_ite a), answers_sra_of_eq 64 (by decide), by decide,
    answers_sra_of_eq 1 (by decide), by decide +kernel⟩
  let n : Fin 128 := ⟨k, Nat.lt_succ_of_le hk⟩
  refine ⟨high (sra128 a n), low (sra128 a n), ?_⟩
  rw [mk_high_low]
  exact ⟨answers_sra a n, toInt_sra128 a n, fun j hj => getLsbD_sra128_of_lt a hj,
    fun h0 => halves_of_eq_mk (sra128_of_zero a h0), fun h1 h63 => halves_of_eq_mk (sra128_of_le_63 a h1 h63),
    fun h64 => halves_of_eq_mk (sra128_of_64_le a h64)⟩

/-! ### The contract of the amount (R68) -/

theorem toInt_eq_toNat_low_of_high_eq_zero {b : Value} (h : high b = 0#64) : b.toInt = (low b).toNat := by
  rw [toInt_eq_halves, h, BitVec.toInt_zero, zero_mul, zero_add]

/-- Operand B carries an amount from 0 to 127 exactly when its high half is zero and its low half is at most 127. -/
theorem amount_in_contract_iff (b : Value) :
    (0 ≤ b.toInt ∧ b.toInt ≤ 127) ↔ (high b = 0#64 ∧ (low b).toNat ≤ 127) := by
  constructor
  · rintro ⟨h0, h127⟩
    have hnat := toNat_eq_toInt_emod b
    have hhigh : high b = 0#64 := BitVec.eq_of_toNat_eq (by rw [toNat_high, BitVec.toNat_zero]; omega)
    rw [toInt_eq_toNat_low_of_high_eq_zero hhigh] at h127
    exact ⟨hhigh, by omega⟩
  · rintro ⟨hhigh, hlow⟩
    rw [toInt_eq_toNat_low_of_high_eq_zero hhigh]
    omega

/-- Settles O31: within the contract the amount is the low half, one of the 128 the units take; outside it no unit is
reached. -/
theorem shiftAmountOutsideTheContractIsRefused : Obligations.ShiftAmountOutsideTheContractIsRefused := by
  intro a b s
  refine ⟨amount_in_contract_iff b, fun ⟨hhigh, hlow⟩ => ?_, fun hout => ?_⟩
  · rw [toInt_eq_toNat_low_of_high_eq_zero hhigh]
    let k : Fin 128 := ⟨(low b).toNat, Nat.lt_succ_of_le hlow⟩
    exact ⟨k, rfl, answers_sll a k, answers_srl a k, answers_sra a k⟩
  · rw [← amount_in_contract_iff] at hout
    have hnone : legalAmount b.toInt = none := legalAmount_eq_none.mpr (by omega)
    exact ⟨exec_sll_of_none s hnone, exec_srl_of_none s hnone, exec_sra_of_none s hnone⟩

end Sys2Proof.Machine
end

section
/-! PROOFS about DIVMOD (spec/45_divide.md): what each iteration of the shift-subtract loop keeps (R73), and that the
whole division is the unsigned floor division of the patterns (R72, R74). -/

namespace Sys2Proof.Machine

/-! ### The scan in powers of two: what aligns the divisor (R51, R73) -/

theorem isHighestSetBit_msb128 {x : Value} (hx : x ≠ 0#128) : IsHighestSetBit x (msb128 x) := by
  obtain ⟨p, hp⟩ := exists_isHighestSetBit hx
  rwa [msb128_of_isHighestSetBit hp]

theorem msb128_lt {x : Value} (hx : x ≠ 0#128) : msb128 x < 128 :=
  (isHighestSetBit_msb128 hx).lt

theorem two_pow_msb128_le {x : Value} (hx : x ≠ 0#128) : 2 ^ msb128 x ≤ x.toNat :=
  Nat.ge_two_pow_of_testBit (isHighestSetBit_msb128 hx).1

theorem lt_two_pow_msb128_succ {x : Value} (hx : x ≠ 0#128) : x.toNat < 2 ^ (msb128 x + 1) :=
  Nat.lt_pow_two_of_testBit _ fun _ hj => (isHighestSetBit_msb128 hx).2 _ hj

theorem msb128_le_of_le {x y : Value} (hx : x ≠ 0#128) (hy : y ≠ 0#128) (hxy : x.toNat ≤ y.toNat) :
    msb128 x ≤ msb128 y := by
  have hpow : 2 ^ msb128 x < 2 ^ (msb128 y + 1) :=
    (two_pow_msb128_le hx).trans_lt (hxy.trans_lt (lt_two_pow_msb128_succ hy))
  exact Nat.le_of_lt_succ ((Nat.pow_lt_pow_iff_right (by decide)).mp hpow)

/-- A pattern above another one is not the zero pattern. -/
theorem ne_zero_of_toNat_lt {x y : Value} (h : x.toNat < y.toNat) : y ≠ 0#128 := by
  rintro rfl
  exact absurd h (Nat.not_lt_zero _)

section Alignment

variable {n d : Value} (hd : d ≠ 0#128) (hlt : d.toNat < n.toNat)
include hd hlt

theorem alignShift_add_msb128 : (alignShift n d).val + msb128 d = msb128 n := by
  have hn := ne_zero_of_toNat_lt hlt
  have hle : msb128 d ≤ msb128 n := msb128_le_of_le hd hn hlt.le
  have hn128 := msb128_lt hn
  rw [alignShift, Fin.val_ofNat, Nat.mod_eq_of_lt (by omega), Nat.sub_add_cancel hle]

/-- The aligned divisor's top bit lies where the dividend's does, so aligning loses no bit. -/
theorem toNat_sll128_alignShift :
    (sll128 d (alignShift n d)).toNat = d.toNat * 2 ^ (alignShift n d).val := by
  have hfits : d.toNat * 2 ^ (alignShift n d).val < 2 ^ 128 :=
    calc d.toNat * 2 ^ (alignShift n d).val
      _ < 2 ^ (msb128 d + 1) * 2 ^ (alignShift n d).val :=
          Nat.mul_lt_mul_of_pos_right (lt_two_pow_msb128_succ hd) (Nat.two_pow_pos _)
      _ = 2 ^ (msb128 n + 1) := by rw [← pow_add, ← alignShift_add_msb128 hd hlt]; congr 1; omega
      _ ≤ 2 ^ 128 := Nat.pow_le_pow_right (by decide) (msb128_lt (ne_zero_of_toNat_lt hlt))
  rw [toNat_sll128, Nat.mod_eq_of_lt hfits]

/-- The dividend is less than twice the aligned divisor. -/
theorem toNat_lt_mul_two_pow_alignShift_succ : n.toNat < d.toNat * 2 ^ ((alignShift n d).val + 1) :=
  calc n.toNat
    _ < 2 ^ (msb128 n + 1) := lt_two_pow_msb128_succ (ne_zero_of_toNat_lt hlt)
    _ = 2 ^ msb128 d * 2 ^ ((alignShift n d).val + 1) := by
        rw [← pow_add, ← alignShift_add_msb128 hd hlt]; congr 1; omega
    _ ≤ d.toNat * 2 ^ ((alignShift n d).val + 1) := Nat.mul_le_mul_right _ (two_pow_msb128_le hd)

end Alignment

/-! ### The body of the loop, on numbers (R73) -/

theorem divBody_of_geu {w : DivWork} (h : geu w.rem w.dd = true) :
    divBody w = ⟨sub128 w.rem w.dd, srl128 w.dd 1, sll128 w.q 1 ||| 1#128, w.i⟩ := if_pos h

theorem divBody_of_not_geu {w : DivWork} (h : ¬geu w.rem w.dd = true) :
    divBody w = ⟨w.rem, srl128 w.dd 1, sll128 w.q 1, w.i⟩ := if_neg h

theorem toNat_sub128_of_le {x y : Value} (h : y.toNat ≤ x.toNat) : (sub128 x y).toNat = x.toNat - y.toNat := by
  rw [sub128_eq, BitVec.toNat_sub_of_le (BitVec.le_def.mpr h)]

theorem toNat_srl128_one (x : Value) : (srl128 x 1).toNat = x.toNat / 2 := toNat_srl128 x 1

theorem toNat_sll128_one {x : Value} (h : x.toNat * 2 < 2 ^ 128) : (sll128 x 1).toNat = x.toNat * 2 :=
  (toNat_sll128 x 1).trans (Nat.mod_eq_of_lt h)

/-- The low bit that the doubling has cleared is set. -/
theorem toNat_sll128_one_or_one {x : Value} (h : x.toNat * 2 < 2 ^ 128) :
    (sll128 x 1 ||| 1#128).toNat = x.toNat * 2 + 1 := by
  have hor : x.toNat <<< 1 + 1 = x.toNat <<< 1 ||| 1 := Nat.shiftLeft_add_eq_or_of_lt (by decide) x.toNat
  rw [Nat.shiftLeft_eq, pow_one] at hor
  rw [BitVec.toNat_or, toNat_sll128_one h, BitVec.toNat_one (by decide), hor]

theorem toNat_dd_divBody (w : DivWork) : (divBody w).dd.toNat = w.dd.toNat / 2 := by
  rw [← toNat_srl128_one]
  by_cases h : geu w.rem w.dd = true
  · rw [divBody_of_geu h]
  · rw [divBody_of_not_geu h]

/-- An iteration in which the shifted divisor fits. -/
theorem toNat_divBody_of_le {w : DivWork} (hq : w.q.toNat * 2 < 2 ^ 128) (h : w.dd.toNat ≤ w.rem.toNat) :
    (divBody w).q.toNat = w.q.toNat * 2 + 1 ∧ (divBody w).rem.toNat = w.rem.toNat - w.dd.toNat := by
  rw [divBody_of_geu ((geu_iff _ _).mpr h)]
  exact ⟨toNat_sll128_one_or_one hq, toNat_sub128_of_le h⟩

/-- An iteration in which the shifted divisor does not fit. -/
theorem toNat_divBody_of_lt {w : DivWork} (hq : w.q.toNat * 2 < 2 ^ 128) (h : w.rem.toNat < w.dd.toNat) :
    (divBody w).q.toNat = w.q.toNat * 2 ∧ (divBody w).rem.toNat = w.rem.toNat := by
  rw [divBody_of_not_geu (mt (geu_iff _ _).mp h.not_ge)]
  exact ⟨toNat_sll128_one hq, rfl⟩

/-! ### The loop divides (R73) -/

/-- What holds of the working values of the division of `n` by `d` when `k` iterations are still to come: the quotient
bits found so far count multiples of `d * 2^k`, of which less than one is left, and the shifted divisor is half of it.
It is R73's invariant with the loop index `k - 1`, continued to the end of the loop, `k = 0`. -/
structure DivWork.ToGo (n d : Value) (k : Nat) (w : DivWork) : Prop where
  dividend : n.toNat = w.q.toNat * (d.toNat * 2 ^ k) + w.rem.toNat
  rem_lt : w.rem.toNat < d.toNat * 2 ^ k
  dd_eq : w.dd.toNat = d.toNat * 2 ^ k / 2

theorem mul_two_pow_succ (d k : Nat) : d * 2 ^ (k + 1) = d * 2 ^ k * 2 := by
  rw [pow_succ, Nat.mul_assoc]

theorem divInit_toGo {n d : Value} (hd : d ≠ 0#128) (hlt : d.toNat < n.toNat) :
    (divInit n d).ToGo n d ((alignShift n d).val + 1) where
  dividend := by simp [divInit]
  rem_lt := toNat_lt_mul_two_pow_alignShift_succ hd hlt
  dd_eq := by
    rw [divInit, toNat_sll128_alignShift hd hlt, mul_two_pow_succ, Nat.mul_div_cancel _ (by decide)]

section Iteration

variable {n d : Value} {k : Nat} {w : DivWork} (h : w.ToGo n d (k + 1))
include h

/-- Doubling the quotient loses no bit, as the dividend counts twice the quotient at least. -/
theorem DivWork.ToGo.toNat_q_mul_two_lt : w.q.toNat * 2 < 2 ^ 128 := by
  obtain ⟨hdividend, hrem, -⟩ := h
  rw [mul_two_pow_succ] at hdividend hrem
  calc w.q.toNat * 2
    _ ≤ w.q.toNat * (d.toNat * 2 ^ k * 2) := Nat.mul_le_mul_left _ (by omega)
    _ ≤ n.toNat := by omega
    _ < 2 ^ 128 := n.isLt

/-- One iteration: a multiple of `d * 2^(k+1)` is two of `d * 2^k`, and there is one more if that much is left. -/
theorem DivWork.ToGo.after_divBody : (divBody w).ToGo n d k := by
  have hfits := h.toNat_q_mul_two_lt
  obtain ⟨hdividend, hrem, hdd⟩ := h
  have hdd' := toNat_dd_divBody w
  rw [mul_two_pow_succ] at hdividend hrem hdd
  rw [Nat.mul_div_cancel _ (by decide)] at hdd
  rw [Nat.mul_comm (d.toNat * 2 ^ k) 2, ← Nat.mul_assoc] at hdividend
  rcases Nat.lt_or_ge w.rem.toNat w.dd.toNat with hlt | hle
  · obtain ⟨hq, hr⟩ := toNat_divBody_of_lt hfits hlt
    exact ⟨by rw [hq, hr, hdividend], by omega, by rw [hdd', hdd]⟩
  · obtain ⟨hq, hr⟩ := toNat_divBody_of_le hfits hle
    exact ⟨by rw [hq, hr, Nat.add_mul]; omega, by omega, by rw [hdd', hdd]⟩

end Iteration

theorem DivWork.ToGo.after_divLoop {n d : Value} {k : Nat} {w : DivWork} (h : w.ToGo n d k) :
    (divLoop k w).ToGo n d 0 := by
  induction k generalizing w with
  | zero => exact h
  | succ k ih => exact ih h.after_divBody

/-- With no iteration to come, what is left is less than the divisor: the quotient and the remainder are found. -/
theorem DivWork.ToGo.eq_udiv_umod {n d : Value} {w : DivWork} (h : w.ToGo n d 0) : w.q = n / d ∧ w.rem = n % d := by
  obtain ⟨hdividend, hrem, -⟩ := h
  rw [pow_zero, Nat.mul_one] at hdividend hrem
  obtain ⟨hq, hr⟩ : n.toNat / d.toNat = w.q.toNat ∧ n.toNat % d.toNat = w.rem.toNat :=
    (Nat.div_mod_unique (by omega)).mpr ⟨by rw [hdividend]; ring, hrem⟩
  exact ⟨BitVec.eq_of_toNat_eq (by rw [BitVec.toNat_udiv, hq]), BitVec.eq_of_toNat_eq (by rw [BitVec.toNat_umod, hr])⟩

/-! ### The whole division: cases (a), (b) and (c) of R73 -/

theorem divMod_of_gtu {n d : Value} (h : gtu d n = true) : divMod n d = (0#128, n) := if_pos h

theorem divMod_self (d : Value) : divMod d d = (1#128, 0#128) := by
  simp [divMod, gtu, ltu, eq128]

theorem divMod_of_toNat_lt {n d : Value} (h : d.toNat < n.toNat) :
    divMod n d = ((divLoop ((alignShift n d).val + 1) (divInit n d)).q,
      (divLoop ((alignShift n d).val + 1) (divInit n d)).rem) := by
  have hgtu : ¬gtu d n = true := by rw [gtu_iff]; omega
  have heq : ¬eq128 d n = true := by rw [eq128_iff]; rintro rfl; exact absurd h (lt_irrefl _)
  rw [divMod, if_neg hgtu, if_neg heq]

/-- The engine is unsigned division of the patterns (R72 under reading U of R74). -/
theorem divMod_eq (n : Value) {d : Value} (hd : d ≠ 0#128) : divMod n d = (n / d, n % d) := by
  rcases Nat.lt_trichotomy n.toNat d.toNat with hlt | heq | hgt
  · have hn : n < d := BitVec.lt_def.mpr hlt
    rw [divMod_of_gtu ((gtu_iff d n).mpr hlt), BitVec.udiv_eq_zero_iff_eq_zero_or_lt.mpr (.inr hn),
      BitVec.umod_eq_of_lt hn]
  · obtain rfl : n = d := BitVec.eq_of_toNat_eq heq
    rw [divMod_self, BitVec.udiv_self, if_neg (by simpa using hd), BitVec.umod_self]
  · obtain ⟨hq, hr⟩ := (divInit_toGo hd hgt).after_divLoop.eq_udiv_umod
    rw [divMod_of_toNat_lt hgt, hq, hr]

/-! ### DIVMOD (R72) -/

theorem exec_divmod_wholeCommand {s : State} (a : Value) {b : Value} (hb : b ≠ 0#128)
    (hs : s.granularity = .wholeCommand) :
    exec (.divmod a b) s = .next (s.respond (divMod a b).1 (divMod a b).2) := by
  simp [exec, execDivmod, hb, hs]

theorem decode_of_opOf_divmod {w : CommandWord} (h : opOf w = 0x09#8) :
    decode w = .command (.divmod (aOf w) (bOf w)) :=
  decode_of_ofOpcode_eq_some (m := .divmod) (by rw [h]; rfl)

/-- Settles O33: the engine is unsigned division of the patterns, whose laws give the result law and the clauses about
every operand; the literals are closed quotients, and the zero divisor is tested first. -/
theorem divmodIsUnsignedFloorDivision : Obligations.DivmodIsUnsignedFloorDivision := by
  refine ⟨fun w hw => decode_of_opOf_divmod hw, fun s a b hb hs => ?_, isFatal_divmod_zero, ?_, ?_, divMod_self 7#128,
    fun d hd => ⟨?_, ?_, divMod_self d⟩, ?_, by decide +kernel⟩
  · have hpos : 0 < b.toNat := Nat.pos_of_ne_zero fun h0 => hb (BitVec.eq_of_toNat_eq h0)
    refine ⟨a / b, a % b, ?_, (divMod_eq a hb).symm, BitVec.toNat_udiv, BitVec.toNat_umod, ?_, ?_⟩
    · rw [exec_divmod_wholeCommand a hb hs, divMod_eq a hb]
      rfl
    · rw [BitVec.toNat_udiv, BitVec.toNat_umod, Nat.div_add_mod']
    · rw [BitVec.toNat_umod]
      exact Nat.mod_lt _ hpos
  · exact divMod_eq 10#128 (by decide)
  · exact divMod_of_gtu (by decide)
  · rw [divMod_eq _ hd, BitVec.zero_udiv, BitVec.zero_umod]
  · rw [divMod_eq _ (by decide), BitVec.udiv_one, BitVec.umod_one]
  · exact divMod_of_gtu (by decide)

end Sys2Proof.Machine
end

section
/-! PROOFS about the fatals (spec/60_exceptions.md): what an instant may do to STATUS, the entry of a fatal (R83), the
`fatal` pin (R86), and the commands that report nothing (R89). -/

namespace Sys2Proof

open Sys2Proof.Machine

/-! ### The opcode of a decoded command (R43, R46) -/

theorem Mnemonic.opcode_of_ofOpcode_eq_some {op : Byte} {m : Mnemonic} (h : Mnemonic.ofOpcode op = some m) :
    m.opcode = op := by
  unfold Mnemonic.ofOpcode at h
  split_ifs at h
  all_goals
    obtain rfl := Option.some.inj h
    symm
    assumption

@[simp] theorem Mnemonic.mnemonic_command (m : Mnemonic) (a b : Value) : (m.command a b).mnemonic = m := by
  cases m <;> rfl

theorem opcode_mnemonic_of_decode {w : CommandWord} {i : Instr} (h : decode w = .command i) :
    i.mnemonic.opcode = opOf w := by
  cases hop : Mnemonic.ofOpcode (opOf w) with
  | none =>
    rw [decode_of_ofOpcode_eq_none hop] at h
    exact Decoded.noConfusion h
  | some m =>
    rw [decode_of_ofOpcode_eq_some hop] at h
    obtain rfl := Decoded.command.inj h
    rw [Mnemonic.mnemonic_command, Mnemonic.opcode_of_ofOpcode_eq_some hop]

end Sys2Proof

namespace Sys2Proof.Machine

/-! ### What an instant may do to STATUS (R81, R83) -/

theorem transact_of_command {w : CommandWord} {i : Instr} (h : decode w = .command i) : transact w = lawOf i := by
  rw [transact, h]

theorem transact_of_illegal {w : CommandWord} {e : DecodeError} (h : decode w = .illegal e) :
    transact w = .fatal .illegalCmd := by
  rw [transact, h]

theorem State.serve_status (s : State) (f : InFlight) : (s.serve f).status = s.status := by
  obtain ⟨w, -, h⟩ | ⟨q, r, l, -, h⟩ | ⟨r, -, -, h⟩ | ⟨r, -, -, h⟩ := serve_cases s f
  all_goals rw [h]
  rw [State.takeResponse_status]

/-- A command leaves STATUS alone, or the result law calls it fatal and STATUS is latched with that cause. -/
theorem exec_status_cases {i : Instr} {s t : State} (h : exec i s = .next t) :
    t.status = s.status ∨
    ∃ c : Cause, lawOf i = .fatal c ∧ t.status = ⟨true, c.code, i.mnemonic.opcode⟩ := by
  obtain ⟨y, z, rfl⟩ | ⟨rfl, rfl⟩ | ⟨a, rfl, rfl⟩ | ⟨a, b, -, -, -, rfl⟩ := exec_cases h
  · exact .inl rfl
  · exact .inr ⟨.scanZero, rfl, rfl⟩
  · exact .inr ⟨.divZero, rfl, rfl⟩
  · exact .inl rfl

/-- An instant clears STATUS by reset, leaves it alone, or latches the fatal of the word it accepts. -/
theorem step_status_cases {s t : State} (h : step s = .next t) :
    (s.pins.rst = true ∧ t.status = Status.clear) ∨
    (s.pins.rst = false ∧ t.status = s.status) ∨
    (s.accepts s.pins.cmd ∧
      ∃ c : Cause, transact s.pins.cmd = .fatal c ∧ t.status = ⟨true, c.code, opOf s.pins.cmd⟩) := by
  obtain ⟨hrst, rfl⟩ | ⟨hrst, -, -, rfl⟩ | ⟨f, hrst, -, -, rfl⟩ | ⟨hrst, -, -, -, rfl⟩ |
    ⟨i, u, hrst, hh, hf, hv, hd, hu, rfl⟩ | ⟨e, hrst, hh, hf, hv, hd, rfl⟩ := step_cases h
  · exact .inl ⟨hrst, rfl⟩
  · exact .inr (.inl ⟨hrst, rfl⟩)
  · exact .inr (.inl ⟨hrst, s.serve_status f⟩)
  · exact .inr (.inl ⟨hrst, rfl⟩)
  · obtain hkept | ⟨c, hlaw, hlatched⟩ := exec_status_cases hu
    · exact .inr (.inl ⟨hrst, hkept⟩)
    · rw [opcode_mnemonic_of_decode hd] at hlatched
      exact .inr (.inr ⟨⟨s.cmdReady_iff.mpr ⟨hrst, hh, hf⟩, hv, rfl⟩, c,
        (transact_of_command hd).trans hlaw, hlatched⟩)
  · exact .inr (.inr ⟨⟨s.cmdReady_iff.mpr ⟨hrst, hh, hf⟩, hv, rfl⟩, .illegalCmd, transact_of_illegal hd, rfl⟩)

theorem State.not_accepts_of_halted {s : State} {w : CommandWord} (h : s.status.halted = true) : ¬s.accepts w := by
  rintro ⟨hready, -, -⟩
  obtain ⟨-, hrun, -⟩ := s.cmdReady_iff.mp hready
  simp [h] at hrun

/-- A halted unit keeps STATUS as long as `rst` is released (R84). -/
theorem step_status_of_halted {s t : State} (h : step s = .next t) (hh : s.status.halted = true)
    (hrst : s.pins.rst = false) : t.status = s.status := by
  obtain ⟨hrst', -⟩ | ⟨-, hkept⟩ | ⟨hacc, -⟩ := step_status_cases h
  · simp [hrst] at hrst'
  · exact hkept
  · exact absurd hacc (State.not_accepts_of_halted hh)

/-! ### The `fatal` pin (R86) -/

/-- Settles O45: the pin is HALTED, which a halted unit keeps until `rst` clears it, and which a unit that is not halted
sets only by accepting a word whose outcome is a fatal. -/
theorem fatalPinFallsOnlyAtReset : Obligations.FatalPinFallsOnlyAtReset := by
  refine ⟨State.fatalPin_eq, fun s t h hs => ?_, fun s t h hs ht => ?_⟩
  · cases hrst : s.pins.rst with
    | true =>
      rw [step_of_rst hrst] at h
      obtain rfl := Host.Outcome.next.inj h
      exact iff_of_true rfl rfl
    | false =>
      have ht : t.status.halted = true := by rwa [step_status_of_halted h hs hrst]
      simp [ht]
  · obtain ⟨-, hclear⟩ | ⟨-, hkept⟩ | hfatal := step_status_cases h
    · simp [hclear, Status.clear] at ht
    · exact absurd ht (by simpa [hkept] using hs)
    · exact hfatal

/-! ### The commands that report nothing (R89) -/

/-- Settles O46: an amount from 0 to 127 is one of the 128 the shift units take, and each of the seven commands is
answered by its datapath whatever the operands. -/
theorem silentArithmeticIsTotal : Obligations.SilentArithmeticIsTotal := by
  intro x a b k h0 h127
  obtain ⟨n, rfl⟩ : ∃ n : Fin 128, k = n.val := ⟨⟨k.toNat, by omega⟩, by simp [h0]⟩
  simp only [List.forall_mem_cons]
  exact ⟨⟨_, answers_clz32 x⟩, ⟨_, answers_add a b⟩, ⟨_, answers_sub a b⟩, ⟨_, answers_mul a b⟩, ⟨_, answers_sll a n⟩,
    ⟨_, answers_srl a n⟩, ⟨_, answers_sra a n⟩, List.forall_mem_nil _⟩

/-! ### The entry of a fatal (R83) -/

theorem toNat_append_eq_add {m n : Nat} (x : BitVec m) (y : BitVec n) :
    (x ++ y).toNat = x.toNat * 2 ^ n + y.toNat := by
  rw [BitVec.toNat_append, ← Nat.shiftLeft_add_eq_or_of_lt y.isLt, Nat.shiftLeft_eq]

/-- STATUS as a number: FOP weighs 2^8, CAUSE 2, HALTED 1 (R19). -/
theorem State.toNat_statusWord (s : State) :
    s.statusWord.toNat = s.status.fop.toNat * 256 + 2 * s.status.cause.toNat + s.status.halted.toNat := by
  rw [State.statusWord, toNat_append_eq_add, toNat_append_eq_add, toNat_append_eq_add, BitVec.toNat_ofBool]
  simp only [BitVec.toNat_ofNat]
  omega

/-- Settles O41: each cause is raised through `raiseFatal`, whose laws say what is written and what is kept; a halted
unit keeps STATUS, so it stays halted and has not ended well. -/
theorem fatalEntryWritesStatusAndNothingElse : Obligations.FatalEntryWritesStatusAndNothingElse := by
  refine ⟨isFatal_divmod_zero, isFatal_msb128_zero, fun s w e hacc hd => step_of_accepts_illegal hacc hd,
    fun s c op => ?_, fun s t hh hrst h => ?_⟩
  · have hresponse : (s.raiseFatal c op).response = none := State.response_of_none _ rfl
    refine ⟨rfl, State.toNat_statusWord _, rfl, rfl, hresponse, ?_, rfl, rfl, rfl, rfl, fun ⟨_, hrun⟩ => ?_⟩
    · rw [State.respValid_eq, hresponse, Option.isSome_none]
    · simp at hrun
  · have hkept := step_status_of_halted h hh hrst
    exact ⟨hkept, fun ⟨_, hrun⟩ => by simp [hkept, hh] at hrun⟩

end Sys2Proof.Machine
end

section
/-! PROOFS about the decoder and the encoder (spec/30_encoding.md): the round trips between commands and command words
(R40, R42, R43, R45), the opcode map (R43), and the serial transfer of words (R31). -/

namespace Sys2Proof

open Sys2Proof.Machine

/-! ### Decoding the encoding of a command (R46) -/

theorem amountFits_iff (k : Int) : amountFits k = true ↔ -(2 ^ 127) ≤ k ∧ k < 2 ^ 127 := by
  simp [amountFits]

theorem amountFits_amountOperand (b : Value) : amountFits (amountOperand b) = true :=
  (amountFits_iff _).mpr ⟨b.le_toInt, b.toInt_lt⟩

theorem amountOperand_ofInt {k : Int} (h : amountFits k = true) : amountOperand (BitVec.ofInt 128 k) = k := by
  obtain ⟨hlo, hhi⟩ := (amountFits_iff k).mp h
  exact BitVec.toInt_ofInt_eq_self (by decide) hlo hhi

theorem wordOperand_setWidth (x : Limb) : wordOperand (x.setWidth 128) = x := by
  apply BitVec.eq_of_toNat_eq
  rw [wordOperand, BitVec.extractLsb'_toNat, Nat.shiftRight_zero, BitVec.toNat_setWidth]
  have := x.isLt
  omega

/-- Reading the operand fields that the encoder writes gives the command back. -/
theorem Instr.command_fields {i : Instr} (h : i.wellFormed = true) : i.mnemonic.command i.fieldA i.fieldB = i := by
  cases i with
  | clz32 x => exact congrArg Instr.clz32 (wordOperand_setWidth x)
  | msb128 a => rfl
  | add a b => rfl
  | sub a b => rfl
  | mul a b => rfl
  | sll a k => exact congrArg (Instr.sll a) (amountOperand_ofInt h)
  | srl a k => exact congrArg (Instr.srl a) (amountOperand_ofInt h)
  | sra a k => exact congrArg (Instr.sra a) (amountOperand_ofInt h)
  | divmod a b => rfl

theorem decode_encode {i : Instr} (h : i.wellFormed = true) : decode (encode i) = .command i := by
  rw [encode, decode_commandWord_opcode, Instr.command_fields h]

/-- Settles O5: the encoder writes the opcode of the command's mnemonic and its operand fields, and the decoder reads
them as the mnemonic's form says. -/
theorem decodeOfEncodeIsIdentity : Obligations.DecodeOfEncodeIsIdentity :=
  fun _ hi => decode_encode hi

/-! ### Encoding what a word decodes to (R42, R45) -/

theorem exists_mnemonic_of_decode {w : CommandWord} {i : Instr} (h : decode w = .command i) :
    ∃ m : Mnemonic, m.opcode = opOf w ∧ i = m.command (aOf w) (bOf w) := by
  cases hop : Mnemonic.ofOpcode (opOf w) with
  | none => simp [decode_of_ofOpcode_eq_none hop] at h
  | some m =>
    rw [decode_of_ofOpcode_eq_some hop] at h
    exact ⟨m, Mnemonic.opcode_of_ofOpcode_eq_some hop, (Decoded.command.inj h).symm⟩

theorem Mnemonic.wellFormed_command (m : Mnemonic) (a b : Value) : (m.command a b).wellFormed = true := by
  cases m with
  | sll => exact amountFits_amountOperand b
  | srl => exact amountFits_amountOperand b
  | sra => exact amountFits_amountOperand b
  | clz32 => rfl
  | msb128 => rfl
  | add => rfl
  | sub => rfl
  | mul => rfl
  | divmod => rfl

theorem Mnemonic.fieldA_command {m : Mnemonic} (a b : Value) (h : m ≠ .clz32) : (m.command a b).fieldA = a := by
  cases m with
  | clz32 => exact absurd rfl h
  | _ => rfl

theorem ofInt_amountOperand (b : Value) : BitVec.ofInt 128 (amountOperand b) = b := BitVec.ofInt_toInt

theorem Mnemonic.fieldB_command {m : Mnemonic} (a b : Value) (hw : m ≠ .clz32) (hv : m ≠ .msb128) :
    (m.command a b).fieldB = b := by
  cases m with
  | clz32 => exact absurd rfl hw
  | msb128 => exact absurd rfl hv
  | sll => exact ofInt_amountOperand b
  | srl => exact ofInt_amountOperand b
  | sra => exact ofInt_amountOperand b
  | _ => rfl

/-- Settles O6: a word that decodes carries an assigned opcode, and each of the encoder's operand fields, written from
the operands of that form, is the word's own unless the form drops some of it. -/
theorem encodeOfDecodeKeepsReadFields : Obligations.EncodeOfDecodeKeepsReadFields := by
  intro w i hdec
  obtain ⟨m, hop, rfl⟩ := exists_mnemonic_of_decode hdec
  obtain ⟨hopcode, hA, hB⟩ := Laws.FieldsOfEncoding.of_encode (m.command (aOf w) (bOf w))
  rw [Mnemonic.mnemonic_command] at hopcode
  simp only [Mnemonic.mnemonic_command]
  refine ⟨m.wellFormed_command _ _, hopcode.trans hop, fun hw => hA.trans (m.fieldA_command _ _ hw), ?_,
    fun hw hv => ?_, ?_⟩
  · rintro rfl
    exact hA
  · rw [encode, Mnemonic.mnemonic_command, hop, m.fieldA_command _ _ hw, m.fieldB_command _ _ hw hv,
      commandWord_fields]
  · rintro (rfl | rfl)
    · exact hB
    · exact hB

/-! ### The opcode map (R43) -/

theorem Mnemonic.ofOpcode_eq_some_iff {op : Byte} {m : Mnemonic} : Mnemonic.ofOpcode op = some m ↔ op = m.opcode := by
  constructor
  · exact fun h => (Mnemonic.opcode_of_ofOpcode_eq_some h).symm
  · rintro rfl
    exact m.ofOpcode_opcode

theorem Mnemonic.opcode_mem_range (m : Mnemonic) : 1 ≤ m.opcode.toNat ∧ m.opcode.toNat ≤ 9 := by
  cases m <;> decide

theorem exists_opcode_eq {op : Byte} (h1 : 1 ≤ op.toNat) (h9 : op.toNat ≤ 9) : ∃ m : Mnemonic, op = m.opcode := by
  have hop : op = BitVec.ofNat 8 op.toNat := by simp
  rw [hop]
  interval_cases op.toNat
  exacts [⟨.clz32, rfl⟩, ⟨.msb128, rfl⟩, ⟨.add, rfl⟩, ⟨.sub, rfl⟩, ⟨.mul, rfl⟩, ⟨.sll, rfl⟩, ⟨.srl, rfl⟩, ⟨.sra, rfl⟩,
    ⟨.divmod, rfl⟩]

theorem Mnemonic.isSome_ofOpcode_iff (op : Byte) :
    (Mnemonic.ofOpcode op).isSome = true ↔ 1 ≤ op.toNat ∧ op.toNat ≤ 9 := by
  simp only [Option.isSome_iff_exists, Mnemonic.ofOpcode_eq_some_iff]
  constructor
  · rintro ⟨m, rfl⟩
    exact m.opcode_mem_range
  · exact fun ⟨h1, h9⟩ => exists_opcode_eq h1 h9

/-- Settles O8: each mnemonic's opcode is read back as it, and the nine opcodes are the values 1 to 9. -/
theorem opcodeMapIsOneToOne : Obligations.OpcodeMapIsOneToOne :=
  ⟨fun _ _ => Mnemonic.ofOpcode_eq_some_iff, Mnemonic.isSome_ofOpcode_iff, rfl⟩

/-- Settles O7: each word carries the opcode of its command, and its fields are closed extracts. -/
theorem sampleWordsDecodeAsTheSpecWritesThem : Obligations.SampleWordsDecodeAsTheSpecWritesThem := by
  unfold Obligations.SampleWordsDecodeAsTheSpecWritesThem
  decide +kernel

/-! ### Serial transfer (R31) -/

theorem natOfBytes_append (xs ys : List Byte) :
    natOfBytes (xs ++ ys) = natOfBytes xs + 2 ^ (8 * xs.length) * natOfBytes ys := by
  induction xs with
  | nil => simp [natOfBytes]
  | cons x xs ih =>
    rw [List.cons_append, natOfBytes, ih, natOfBytes, List.length_cons, Nat.mul_succ, pow_add]
    ring

/-- The first `n` bytes carry the low `8n` bits of the word. -/
theorem natOfBytes_serialBytes {m : Nat} (w : BitVec m) (n : Nat) :
    natOfBytes (serialBytes w n) = w.toNat % 2 ^ (8 * n) := by
  induction n with
  | zero => simp [serialBytes, natOfBytes, Nat.mod_one]
  | succ n ih =>
    have hlast : serialBytes w (n + 1) = serialBytes w n ++ [byteOf w n] := by
      simp [serialBytes, List.range_succ]
    rw [hlast, natOfBytes_append, ih, length_serialBytes, Nat.mul_succ, pow_add, Nat.mod_mul]
    simp [natOfBytes, toNat_byteOf]

theorem natOfBytes_serialBytes_of_full {n : Nat} (w : BitVec (8 * n)) : natOfBytes (serialBytes w n) = w.toNat := by
  rw [natOfBytes_serialBytes, Nat.mod_eq_of_lt w.isLt]

theorem decodeBytes_serialBytes (w : CommandWord) : decodeBytes (serialBytes w 33) = decode w := by
  rw [decodeBytes, if_pos (length_serialBytes w 33), natOfBytes_serialBytes_of_full (n := 33) w, BitVec.ofNat_toNat,
    BitVec.setWidth_eq]

theorem tableWord_toNat (w : CommandWord) : tableWord 264 w.toNat = w := by
  rw [tableWord, Nat.mod_eq_of_lt w.isLt, BitVec.ofNat_toNat, BitVec.setWidth_eq]

/-- Settles O11: the bytes of a word, read in their order, make up its number, as 33 bytes hold all of a command word
and 32 all of a response. -/
theorem serialTransferRoundTrips : Obligations.SerialTransferRoundTrips := by
  refine ⟨fun w => ⟨length_serialBytes w 33, natOfBytes_serialBytes_of_full (n := 33) w, decodeBytes_serialBytes w⟩,
    fun r => ⟨length_serialBytes r.word 32, natOfBytes_serialBytes_of_full (n := 32) r.word⟩, fun bs hbs => if_neg hbs,
    fun w => ?_⟩
  cases hdec : decode w with
  | command i => simp [decodeTableWord, tableWord_toNat, decodeBytes_serialBytes, hdec]
  | illegal e => simp [decodeTableWord, tableWord_toNat, decodeBytes_serialBytes, hdec]

end Sys2Proof
end

section
/-! PROOFS about the order of the value type (spec/10_state.md R13, R15) and about the two readings of a pattern
(R10). -/

namespace Sys2Proof.Machine

/-! ### The two readings of a pattern (R10) -/

theorem signBit_clear_iff (x : Value) : x.getLsbD 127 = false ↔ x.toNat < 2 ^ 127 := by
  have hset : x.getLsbD 127 = true ↔ x.toNat / 2 ^ 127 % 2 = 1 := by
    rw [BitVec.getLsbD, Nat.testBit_eq_decide_div_mod_eq, decide_eq_true_iff]
  have := x.isLt
  rw [← Bool.not_eq_true, hset]
  omega

theorem toInt_of_signBit_clear {x : Value} (h : x.getLsbD 127 = false) : x.toInt = x.toNat :=
  BitVec.toInt_eq_toNat_of_msb ((BitVec.msb_eq_getLsbD_last x).trans h)

theorem toInt_of_signBit_set {x : Value} (h : x.getLsbD 127 = true) : x.toInt = x.toNat - 2 ^ 128 := by
  have hneg := (toInt_neg_iff_signBit x).mpr h
  have hmod := toNat_eq_toInt_emod x
  have hlo : -(2 ^ 127) ≤ x.toInt := x.le_toInt
  omega

theorem toInt_modEq_toNat (x : Value) : x.toInt ≡ x.toNat [ZMOD 2 ^ 128] := by
  rw [toNat_eq_toInt_emod]
  exact (Int.mod_modEq _ _).symm

/-! ### The order (R13, R15) -/

/-- Settles O3: closed patterns. -/
theorem constantsOfTheValueType : Obligations.ConstantsOfTheValueType := by
  unfold Obligations.ConstantsOfTheValueType
  decide

theorem lts_trichotomy (x y : Value) : lts x y = true ∨ x = y ∨ lts y x = true := by
  rw [lts_iff, lts_iff]
  rcases lt_trichotomy x.toInt y.toInt with hlt | heq | hgt
  · exact .inl hlt
  · exact .inr (.inl (BitVec.eq_of_toInt_eq heq))
  · exact .inr (.inr hgt)

/-- A low half weighs less than one unit of a high half. -/
theorem lts_iff_halves (x y : Value) :
    lts x y = true ↔ (high x).toInt < (high y).toInt ∨ (high x = high y ∧ (low x).toNat < (low y).toNat) := by
  have hx := toInt_eq_halves x
  have hy := toInt_eq_halves y
  have := (low x).isLt
  have := (low y).isLt
  rw [lts_iff, ← BitVec.toInt_inj]
  omega

theorem lts_eq_ltu_of_signBit_clear {x y : Value} (hx : x.getLsbD 127 = false) (hy : y.getLsbD 127 = false) :
    lts x y = ltu x y := by
  simp [lts, ltu, toInt_of_signBit_clear hx, toInt_of_signBit_clear hy]

/-- The two orders agree when the signs do, and are opposite when they do not. -/
theorem lts_ne_ltu_iff (x y : Value) : lts x y ≠ ltu x y ↔ x.getLsbD 127 ≠ y.getLsbD 127 := by
  have hxlt := x.isLt
  have hylt := y.isLt
  cases hx : x.getLsbD 127 with
  | false =>
    have hxnat := (signBit_clear_iff x).mp hx
    cases hy : y.getLsbD 127 with
    | false => simp [lts_eq_ltu_of_signBit_clear hx hy]
    | true =>
      have hynat := mt (signBit_clear_iff y).mpr (by simp [hy])
      simp only [lts, ltu, toInt_of_signBit_clear hx, toInt_of_signBit_set hy, ne_eq, decide_eq_decide]
      simp only [Bool.false_eq_true, not_false_eq_true, iff_true]
      omega
  | true =>
    have hxnat := mt (signBit_clear_iff x).mpr (by simp [hx])
    cases hy : y.getLsbD 127 with
    | false =>
      have hynat := (signBit_clear_iff y).mp hy
      simp only [lts, ltu, toInt_of_signBit_set hx, toInt_of_signBit_clear hy, ne_eq, decide_eq_decide]
      simp only [Bool.true_eq_false, not_false_eq_true, iff_true]
      omega
    | true => simp [lts, ltu, toInt_of_signBit_set hx, toInt_of_signBit_set hy]

/-- Settles O4: the comparator compares signed values, which are the unsigned ones less 2^128 where bit 127 is set. -/
theorem signedOrderOfTheValueType : Obligations.SignedOrderOfTheValueType :=
  ⟨lts_iff, lts_trichotomy, by decide, by decide, lts_iff_halves, lts_ne_ltu_iff⟩

end Sys2Proof.Machine
end

section
/-! PROOFS about the division engine (spec/45_divide.md): the loop's invariant (R73), the contracts of the scanner and
the shifter (R75), the number of iterations (R79), the division identity (R78) and the signed reading (R77). -/

namespace Sys2Proof.Machine

/-! ### The loop's invariant and one iteration (R73, R76) -/

/-- R73's invariant at index `i` is that of the division with `i + 1` iterations to come, with the bounds of the index
and of the quotient bits found. -/
theorem DivWork.inLoop_iff {n d : Value} {w : DivWork} :
    w.InLoop n d ↔ w.i.val ≤ (alignShift n d).val ∧ w.q.toNat < 2 ^ ((alignShift n d).val - w.i.val) ∧
      w.ToGo n d (w.i.val + 1) := by
  have hhalf : d.toNat * 2 ^ (w.i.val + 1) / 2 = d.toNat * 2 ^ w.i.val := by
    rw [mul_two_pow_succ, Nat.mul_div_cancel _ (by decide)]
  have htwice := mul_two_pow_succ d.toNat w.i.val
  have hassoc : w.q.toNat * d.toNat * 2 ^ (w.i.val + 1) = w.q.toNat * (d.toNat * 2 ^ (w.i.val + 1)) :=
    Nat.mul_assoc _ _ _
  constructor
  · rintro ⟨hi, hdd, hrem, hq, hdividend⟩
    exact ⟨hi, hq, by rw [hdividend, hassoc], by omega, by rw [hdd, hhalf]⟩
  · rintro ⟨hi, hq, hdividend, hrem, hdd⟩
    rw [hhalf] at hdd
    exact ⟨hi, hdd, by omega, hq, by rw [hassoc, hdividend]⟩

theorem divInit_inLoop {n d : Value} (hd : d ≠ 0#128) (hlt : d.toNat < n.toNat) : (divInit n d).InLoop n d :=
  DivWork.inLoop_iff.mpr ⟨le_rfl, Nat.two_pow_pos _, divInit_toGo hd hlt⟩

theorem divBody_dd (w : DivWork) : (divBody w).dd = srl128 w.dd 1 := by
  by_cases h : geu w.rem w.dd = true
  · rw [divBody_of_geu h]
  · rw [divBody_of_not_geu h]

theorem divBody_i (w : DivWork) : (divBody w).i = w.i := by
  by_cases h : geu w.rem w.dd = true
  · rw [divBody_of_geu h]
  · rw [divBody_of_not_geu h]

theorem toNat_q_divBody_le {w : DivWork} (hq : w.q.toNat * 2 < 2 ^ 128) :
    (divBody w).q.toNat ≤ w.q.toNat * 2 + 1 := by
  rcases Nat.lt_or_ge w.rem.toNat w.dd.toNat with hlt | hle
  · obtain ⟨hq', -⟩ := toNat_divBody_of_lt hq hlt
    omega
  · obtain ⟨hq', -⟩ := toNat_divBody_of_le hq hle
    omega

theorem divIter_of_eq_zero {w : DivWork} (h : w.i = 0) :
    divIter w = .divided (divBody w).q (divBody w).rem (some ⟨srl128 w.dd 1, 0⟩) := by
  simp [divIter, h, divBody_dd, divBody_i]

theorem divIter_of_ne_zero {w : DivWork} (h : w.i ≠ 0) :
    divIter w = .iterating { divBody w with i := w.i - 1 } := by
  simp [divIter, h]

theorem val_sub_one_add_one {i : Fin 128} (h : i ≠ 0) : (i - 1).val + 1 = i.val := by
  have hpos : 0 < i.val := Nat.pos_of_ne_zero fun h0 => h (Fin.ext h0)
  have hle : (1 : Fin 128) ≤ i := Fin.le_def.mpr hpos
  rw [Fin.sub_val_of_le hle]
  exact Nat.sub_add_cancel hpos

section Iteration

variable {n d : Value} {w : DivWork} (h : w.InLoop n d)
include h

theorem DivWork.InLoop.toGo : w.ToGo n d (w.i.val + 1) :=
  have ⟨_, _, htogo⟩ := DivWork.inLoop_iff.mp h
  htogo

/-- An ITER that is not the last keeps the invariant, at the next lower index. -/
theorem DivWork.InLoop.after_divIter (hi : w.i ≠ 0) :
    ∃ w' : DivWork, divIter w = .iterating w' ∧ w'.i.val + 1 = w.i.val ∧ w'.InLoop n d := by
  obtain ⟨hshift, hq, htogo⟩ := DivWork.inLoop_iff.mp h
  have hpred := val_sub_one_add_one hi
  have hnext : (divBody w).ToGo n d ((w.i - 1).val + 1) := hpred ▸ htogo.after_divBody
  have hshift' : (w.i - 1).val ≤ (alignShift n d).val := by omega
  have hbits : (alignShift n d).val - (w.i - 1).val = (alignShift n d).val - w.i.val + 1 := by omega
  have hq' : (divBody w).q.toNat < 2 ^ ((alignShift n d).val - (w.i - 1).val) := by
    have := toNat_q_divBody_le htogo.toNat_q_mul_two_lt
    rw [hbits, pow_succ]
    omega
  exact ⟨{ divBody w with i := w.i - 1 }, divIter_of_ne_zero hi, hpred,
    DivWork.inLoop_iff.mpr ⟨hshift', hq', ⟨hnext.dividend, hnext.rem_lt, hnext.dd_eq⟩⟩⟩

theorem DivWork.InLoop.toGo_divBody_of_eq_zero (hi : w.i = 0) : (divBody w).ToGo n d 0 := by
  have htogo := h.toGo
  rw [hi] at htogo
  exact htogo.after_divBody

end Iteration

theorem DivWork.ToGo.dividend_zero {n d : Value} {w : DivWork} (h : w.ToGo n d 0) :
    n.toNat = w.q.toNat * d.toNat + w.rem.toNat := by
  simpa using h.dividend

theorem DivWork.ToGo.rem_lt_zero {n d : Value} {w : DivWork} (h : w.ToGo n d 0) : w.rem.toNat < d.toNat := by
  simpa using h.rem_lt

/-- Settles O34: aligning is exact, so the invariant holds at the start; an iteration finds one more bit of the quotient
and keeps it, and after the last one less than the divisor is left. -/
theorem divisionLoopFacts : Obligations.DivisionLoopFacts := by
  refine ⟨fun n d hd hlt => ⟨alignShift_add_msb128 hd hlt, toNat_sll128_alignShift hd hlt, divInit_inLoop hd hlt⟩,
    fun n d w _ h => ⟨?_, h.after_divIter, fun hi => ?_⟩, fun x y hge => ?_⟩
  · rw [toNat_sll128_one h.toGo.toNat_q_mul_two_lt, Nat.mul_comm]
  · have hlast := h.toGo_divBody_of_eq_zero hi
    exact ⟨_, _, divIter_of_eq_zero hi, hlast.rem_lt_zero, hlast.dividend_zero⟩
  · have hle := (geu_iff x y).mp hge
    rw [toNat_sub128_of_le hle, Nat.sub_add_cancel hle]

/-! ### The scanner and the shifter within their contracts (R75) -/

theorem toNat_pos {x : Value} (hx : x ≠ 0#128) : 0 < x.toNat :=
  Nat.pos_of_ne_zero fun h0 => hx (BitVec.eq_of_toNat_eq h0)

/-- Neither case (a) nor case (b): the dividend is above the divisor. -/
theorem toNat_lt_of_not_gtu_not_eq128 {n d : Value} (hgtu : gtu d n = false) (heq : eq128 d n = false) :
    d.toNat < n.toNat := by
  have hle : ¬n.toNat < d.toNat := by simp [← gtu_iff, hgtu]
  have hne : d.toNat ≠ n.toNat := fun h => by simp [eq128, BitVec.eq_of_toNat_eq h] at heq
  omega

theorem val_alignShift {n d : Value} (hd : d ≠ 0#128) (hlt : d.toNat < n.toNat) :
    (alignShift n d).val = msb128 n - msb128 d :=
  Nat.eq_sub_of_add_eq (alignShift_add_msb128 hd hlt)

theorem exec_divmod_status {s t : State} {a b : Value} (hb : b ≠ 0#128) (h : exec (.divmod a b) s = .next t) :
    t.status = s.status := by
  obtain ⟨y, z, rfl⟩ | ⟨hi, -⟩ | ⟨a', hi, -⟩ | ⟨a', b', -, -, -, rfl⟩ := exec_cases h
  · rfl
  · exact Instr.noConfusion hi
  · injection hi with _ hzero
    exact absurd hzero hb
  · rfl

/-- Settles O35: where the loop is entered the dividend is above the nonzero divisor, so both scans are of nonzero
patterns and their difference is an amount of the shifter; the zero divisor is tested first, and it alone is fatal. -/
theorem divmodNeverScansZero : Obligations.DivmodNeverScansZero := by
  refine ⟨fun n d hd hgtu heq => ?_, fun d hd => ?_, fun s t a b h => ?_, fun s t f hrst hrun hf h => ?_⟩
  · have hlt := toNat_lt_of_not_gtu_not_eq128 hgtu heq
    have hn := ne_zero_of_toNat_lt hlt
    have := msb128_lt hn
    exact ⟨hn, hlt, val_alignShift hd hlt, by omega⟩
  · have hgtu : gtu d 0#128 = true := (gtu_iff d 0#128).mpr (toNat_pos hd)
    exact ⟨hgtu, divMod_of_gtu hgtu⟩
  · by_cases hb : b = 0#128
    · subst hb
      rw [exec_divmod_zero] at h
      obtain rfl := Host.Outcome.next.inj h
      exact .inl ⟨rfl, rfl⟩
    · exact .inr ⟨hb, exec_divmod_status hb h⟩
  · rw [step_of_inFlight hrst hrun hf] at h
    obtain rfl := Host.Outcome.next.inj h
    exact s.serve_status f

/-! ### The number of iterations (R79) -/

theorem iterations_of_le {n d : Value} (h : n.toNat ≤ d.toNat) : iterations n d = 0 := by
  have hcase : (gtu d n || eq128 d n) = true := by
    rw [Bool.or_eq_true, gtu_iff, eq128_iff]
    rcases Nat.lt_or_eq_of_le h with hlt | heq
    · exact .inl hlt
    · exact .inr (BitVec.eq_of_toNat_eq heq.symm)
  rw [iterations, if_pos hcase]

theorem iterations_of_lt {n d : Value} (h : d.toNat < n.toNat) : iterations n d = (alignShift n d).val + 1 := by
  have hcase : ¬(gtu d n || eq128 d n) = true := by
    rw [Bool.or_eq_true, gtu_iff, eq128_iff]
    rintro (hlt | rfl)
    · omega
    · omega
  rw [iterations, if_neg hcase]

theorem msb128_eq_127_iff {x : Value} (hx : x ≠ 0#128) : msb128 x = 127 ↔ x.getLsbD 127 = true := by
  have htop := isHighestSetBit_msb128 hx
  constructor
  · intro h
    rw [← h]
    exact htop.1
  · intro h
    exact htop.unique ⟨h, fun j hj => BitVec.getLsbD_of_ge x j hj⟩

theorem msb128_eq_zero_iff {x : Value} (hx : x ≠ 0#128) : msb128 x = 0 ↔ x = 1#128 := by
  constructor
  · intro h
    have hlt : x.toNat < 2 := by simpa [h] using lt_two_pow_msb128_succ hx
    have hpos := toNat_pos hx
    exact BitVec.eq_of_toNat_eq (show x.toNat = 1 by omega)
  · rintro rfl
    exact msb128_of_isHighestSetBit (isHighestSetBit_ofNat_two_pow (k := 0) (by decide))

/-- Settles O39: the loop, if entered, runs once more than the highest set bits lie apart, which is at most 127 and that
exactly for the bits 127 and 0. -/
theorem divisionTerminates : Obligations.DivisionTerminates := by
  intro a b hb
  rcases Nat.lt_or_ge b.toNat a.toNat with hlt | hle
  · have ha := ne_zero_of_toNat_lt hlt
    have hmsb := alignShift_add_msb128 hb hlt
    have hshift := (alignShift a b).isLt
    have ha128 := msb128_lt ha
    rw [iterations_of_lt hlt, ← msb128_eq_127_iff ha, ← msb128_eq_zero_iff hb]
    exact ⟨by omega, by omega, by omega, by omega, fun _ => ⟨by omega, divMod_of_toNat_lt hlt⟩⟩
  · rw [iterations_of_le hle]
    refine ⟨Nat.zero_le _, iff_of_false (by decide) ?_, iff_of_false (by decide) fun h => ?_,
      iff_of_true rfl hle, fun hlt => absurd hlt (Nat.not_lt.mpr hle)⟩
    · rintro ⟨hset, rfl⟩
      have hge : 2 ^ 127 ≤ a.toNat := Nat.ge_two_pow_of_testBit hset
      exact absurd (hge.trans hle) (by decide)
    · omega

/-! ### The division identity (R78) -/

/-- The engine's results are the quotient and the remainder of the unsigned values. -/
theorem toNat_divMod (a : Value) {b : Value} (hb : b ≠ 0#128) :
    (divMod a b).1.toNat = a.toNat / b.toNat ∧ (divMod a b).2.toNat = a.toNat % b.toNat := by
  rw [divMod_eq a hb]
  exact ⟨BitVec.toNat_udiv, BitVec.toNat_umod⟩

theorem toNat_divMod_identity (a : Value) {b : Value} (hb : b ≠ 0#128) :
    (divMod a b).1.toNat * b.toNat + (divMod a b).2.toNat = a.toNat := by
  obtain ⟨hq, hr⟩ := toNat_divMod a hb
  rw [hq, hr, Nat.div_add_mod']

/-- Dividing a non-negative value by a non-negative one gives non-negative results. -/
theorem signBit_divMod {a b : Value} (hb : b ≠ 0#128) (ha : a.getLsbD 127 = false) :
    (divMod a b).1.getLsbD 127 = false ∧ (divMod a b).2.getLsbD 127 = false := by
  obtain ⟨hq, hr⟩ := toNat_divMod a hb
  rw [signBit_clear_iff] at ha
  rw [signBit_clear_iff, signBit_clear_iff, hq, hr]
  exact ⟨(Nat.div_le_self _ _).trans_lt ha, (Nat.mod_le _ _).trans_lt ha⟩

/-- Settles O38: the identity holds exactly of the unsigned values; each signed value differs from its unsigned one by a
multiple of 2^128, and not at all when bit 127 is clear. -/
theorem divisionIdentity : Obligations.DivisionIdentity := by
  intro a b hb
  have hid := toNat_divMod_identity a hb
  obtain ⟨-, hr⟩ := toNat_divMod a hb
  refine ⟨BitVec.eq_of_toNat_eq ?_, hid, ?_, ?_, fun hsa hsb => ?_⟩
  · rw [toNat_add128, toNat_mul128, Nat.mod_add_mod, hid, Nat.mod_eq_of_lt a.isLt]
  · rw [ltu_iff, hr]
    exact Nat.mod_lt _ (toNat_pos hb)
  · have hmod := ((toInt_modEq_toNat (divMod a b).1).mul (toInt_modEq_toNat b)).add (toInt_modEq_toNat (divMod a b).2)
    have hidInt : ((divMod a b).1.toNat : Int) * b.toNat + (divMod a b).2.toNat = a.toNat := mod_cast hid
    rw [hidInt] at hmod
    exact (hmod.trans (toInt_modEq_toNat a).symm).symm.dvd
  · obtain ⟨hsq, hsr⟩ := signBit_divMod hb hsa
    rw [toInt_of_signBit_clear hsq, toInt_of_signBit_clear hsb, toInt_of_signBit_clear hsr, toInt_of_signBit_clear hsa]
    exact_mod_cast hid

/-! ### The signed reading (R77) -/

theorem alignShift_of_le {n d : Value} (hd : d ≠ 0#128) (h : n.toNat ≤ d.toNat) : alignShift n d = 0 := by
  have hle : msb128 n ≤ msb128 d := by
    by_cases hn : n = 0#128
    · have hscan : msb128 0#128 = 0 := by decide
      rw [hn, hscan]
      exact Nat.zero_le _
    · exact msb128_le_of_le hn hd h
  rw [alignShift, Nat.sub_eq_zero_of_le hle]
  rfl

/-- Aligned with a non-negative dividend, a non-negative divisor stays below 2^127. -/
theorem mul_two_pow_alignShift_lt {n d : Value} (hd : d ≠ 0#128) (hsn : n.toNat < 2 ^ 127) (hsd : d.toNat < 2 ^ 127) :
    d.toNat * 2 ^ (alignShift n d).val < 2 ^ 127 := by
  rcases Nat.lt_or_ge d.toNat n.toNat with hlt | hle
  · have hn := ne_zero_of_toNat_lt hlt
    have htop : msb128 n < 127 :=
      (Nat.pow_lt_pow_iff_right (by decide)).mp ((two_pow_msb128_le hn).trans_lt hsn)
    calc d.toNat * 2 ^ (alignShift n d).val
      _ < 2 ^ (msb128 d + 1) * 2 ^ (alignShift n d).val :=
          Nat.mul_lt_mul_of_pos_right (lt_two_pow_msb128_succ hd) (Nat.two_pow_pos _)
      _ = 2 ^ (msb128 n + 1) := by rw [← pow_add, ← alignShift_add_msb128 hd hlt]; congr 1; omega
      _ ≤ 2 ^ 127 := Nat.pow_le_pow_right (by decide) htop
  · rw [alignShift_of_le hd hle]
    simpa using hsd

theorem geu_eq_not_lts_of_signBit_clear {x y : Value} (hx : x.getLsbD 127 = false) (hy : y.getLsbD 127 = false) :
    geu x y = !lts x y := by
  rw [geu, lts_eq_ltu_of_signBit_clear hx hy]

/-- In the loop of two non-negative operands the working values compared are non-negative. -/
theorem DivWork.InLoop.signBit_clear {n d : Value} {w : DivWork} (h : w.InLoop n d) (hd : d ≠ 0#128)
    (hsn : n.getLsbD 127 = false) (hsd : d.getLsbD 127 = false) :
    w.rem.getLsbD 127 = false ∧ w.dd.getLsbD 127 = false := by
  obtain ⟨hi, hdd, -, -, hdividend⟩ := h
  rw [signBit_clear_iff] at hsn hsd
  rw [signBit_clear_iff, signBit_clear_iff, hdd]
  have hle : d.toNat * 2 ^ w.i.val ≤ d.toNat * 2 ^ (alignShift n d).val :=
    Nat.mul_le_mul_left _ (Nat.pow_le_pow_right (by decide) hi)
  exact ⟨by omega, hle.trans_lt (mul_two_pow_alignShift_lt hd hsn hsd)⟩

/-- Settles O37: with bit 127 clear in both operands it is clear in both results and in what the loop compares, so the
two readings agree throughout; the rows of the table are closed quotients of the patterns. -/
theorem signedReadingOfDivision : Obligations.SignedReadingOfDivision := by
  refine ⟨fun a b hsa hsb hb => ?_, (divMod_eq _ (by decide)).trans (by decide),
    (divMod_eq _ (by decide)).trans (by decide), (divMod_eq _ (by decide)).trans (by decide),
    (divMod_eq _ (by decide)).trans (by decide), (divMod_eq _ (by decide)).trans (by decide),
    (divMod_eq _ (by decide)).trans (by decide), (divMod_eq _ (by decide)).trans (by decide),
    (divMod_eq _ (by decide)).trans (by decide)⟩
  obtain ⟨hq, hr⟩ := toNat_divMod a hb
  obtain ⟨hsq, hsr⟩ := signBit_divMod hb hsa
  have hid := toNat_divMod_identity a hb
  have hquot : (a.toNat : Int) / (b.toNat : Int) = ((divMod a b).1.toNat : Int) := by
    rw [hq, Int.natCast_div]
  have hrem : (divMod a b).2.toNat < b.toNat := hr ▸ Nat.mod_lt _ (toNat_pos hb)
  rw [toInt_of_signBit_clear hsa, toInt_of_signBit_clear hsb, toInt_of_signBit_clear hsq, toInt_of_signBit_clear hsr,
    Int.tdiv_eq_ediv_of_nonneg (Int.natCast_nonneg _), hquot]
  refine ⟨rfl, ?_, Int.natCast_nonneg _, mod_cast hrem, rfl, lts_eq_ltu_of_signBit_clear hsa hsb, fun w hw => ?_⟩
  · rw [← hid]
    push_cast
    ring
  · obtain ⟨hsrem, hsdd⟩ := hw.signBit_clear hb hsa hsb
    exact geu_eq_not_lts_of_signBit_clear hsrem hsdd

end Sys2Proof.Machine
end

section
/-! PROOFS that the machine performs the abstract unit (spec/00_scope.md R6): the datapaths compute the result laws of
the rules, so a command is answered, fatal or refused as the abstract unit says. -/

namespace Sys2Proof.Machine

/-! ### The datapaths compute the result laws -/

theorem toNat_eq_zero_iff {n : Nat} {x : BitVec n} : x.toNat = 0 ↔ x = 0#n :=
  ⟨fun h => BitVec.eq_of_toNat_eq h, fun h => by rw [h]; rfl⟩

section HighestSetBit

variable {n p : Nat} {x : BitVec n} (h : IsHighestSetBit x p)
include h

theorem IsHighestSetBit.ne_zero : x ≠ 0#n := by
  rintro rfl
  simpa using h.1

theorem IsHighestSetBit.two_pow_le : 2 ^ p ≤ x.toNat := Nat.ge_two_pow_of_testBit h.1

theorem IsHighestSetBit.lt_two_pow_succ : x.toNat < 2 ^ (p + 1) :=
  Nat.lt_pow_two_of_testBit _ fun j hj => h.2 j hj

theorem log2_of_isHighestSetBit : Nat.log2 x.toNat = p :=
  (Nat.log2_eq_iff (mt toNat_eq_zero_iff.mp h.ne_zero)).mpr ⟨h.two_pow_le, h.lt_two_pow_succ⟩

end HighestSetBit

theorem clz32_eq_log2 (x : Limb) : clz32 x = if x.toNat = 0 then 32 else 31 - Nat.log2 x.toNat := by
  by_cases hx : x = 0#32
  · rw [if_pos (toNat_eq_zero_iff.mpr hx), hx, clz32_zero]
  · obtain ⟨p, hp⟩ := exists_isHighestSetBit hx
    rw [if_neg (mt toNat_eq_zero_iff.mp hx), clz32_of_isHighestSetBit hp, log2_of_isHighestSetBit hp]

theorem add128_eq_ofNat (a b : Value) : add128 a b = BitVec.ofNat 128 (a.toNat + b.toNat) := by
  apply BitVec.eq_of_toNat_eq
  rw [toNat_add128, BitVec.toNat_ofNat]

theorem sub128_eq_ofInt (a b : Value) : sub128 a b = BitVec.ofInt 128 ((a.toNat : Int) - b.toNat) := by
  apply BitVec.eq_of_toNat_eq
  rw [BitVec.toNat_ofInt]
  have hmod := toNat_sub128 a b
  omega

theorem sll128_eq_ofNat (a : Value) (k : Fin 128) : sll128 a k = BitVec.ofNat 128 (a.toNat * 2 ^ k.val) := by
  apply BitVec.eq_of_toNat_eq
  rw [toNat_sll128, BitVec.toNat_ofNat]

theorem srl128_eq_ofNat (a : Value) (k : Fin 128) : srl128 a k = BitVec.ofNat 128 (a.toNat / 2 ^ k.val) := by
  rw [← toNat_srl128, BitVec.ofNat_toNat, BitVec.setWidth_eq]

theorem sra128_eq_ofInt (a : Value) (k : Fin 128) : sra128 a k = BitVec.ofInt 128 (a.toInt / 2 ^ k.val) := by
  rw [← toInt_sra128, BitVec.ofInt_toInt]

theorem divMod_eq_ofNat (a : Value) {b : Value} (hb : b ≠ 0#128) :
    divMod a b = (BitVec.ofNat 128 (a.toNat / b.toNat), BitVec.ofNat 128 (a.toNat % b.toNat)) := by
  obtain ⟨hq, hr⟩ := toNat_divMod a hb
  rw [← hq, ← hr, BitVec.ofNat_toNat, BitVec.ofNat_toNat, BitVec.setWidth_eq, BitVec.setWidth_eq]

/-! ### What the abstract unit says of a command, carried out by the machine -/

/-- The outcome of the abstract unit as a verdict on a command with this `op`. -/
def Transaction.verdict (op : Byte) : Transaction → Verdict
  | .respond r => .enter (.answered r)
  | .fatal c => .fatal c op
  | .undefined k => .refuse (.shiftAmountUndefined k)

/-- The command does in this state what its result law says. -/
def ObeysLaw (i : Instr) (s : State) : Prop :=
  exec i s = ((lawOf i).verdict i.mnemonic.opcode).apply s

theorem obeysLaw_of_answers {i : Instr} {y z : Value} (h : Answers i y z) (hlaw : lawOf i = .respond ⟨y, z⟩)
    (s : State) : ObeysLaw i s := by
  rw [ObeysLaw, hlaw]
  exact h s

theorem obeysLaw_of_isFatal {i : Instr} {c : Cause} (h : IsFatal i c i.mnemonic.opcode) (hlaw : lawOf i = .fatal c)
    (s : State) : ObeysLaw i s := by
  rw [ObeysLaw, hlaw]
  exact h s

theorem lawOf_msb128_of_isHighestSetBit {a : Value} {m : Nat} (h : IsHighestSetBit a m) :
    lawOf (.msb128 a) = .respond ⟨BitVec.ofNat 128 m, 0#128⟩ := by
  rw [lawOf, if_neg (mt toNat_eq_zero_iff.mp h.ne_zero), log2_of_isHighestSetBit h]

theorem lawOf_divmod {a b : Value} (hb : b ≠ 0#128) :
    lawOf (.divmod a b) = .respond ⟨(divMod a b).1, (divMod a b).2⟩ := by
  rw [lawOf, if_neg (mt toNat_eq_zero_iff.mp hb), divMod_eq_ofNat a hb]

theorem shiftLaw_of_fin (k : Fin 128) (y : Nat → Value) : shiftLaw k.val y = .respond ⟨y k.val, 0#128⟩ := by
  rw [shiftLaw, if_pos (by omega), Int.toNat_natCast]

theorem shiftLaw_of_none {k : Int} (y : Nat → Value) (h : legalAmount k = none) : shiftLaw k y = .undefined k := by
  rw [legalAmount_eq_none] at h
  rw [shiftLaw, if_neg (by omega)]

/-- A shift obeys its law: a legal amount is one of the 128 its unit takes, and any other is undefined for both. -/
theorem obeysLaw_of_shift {i : Int → Instr} {k : Int} (unit : Fin 128 → Value) (y : Nat → Value)
    (hlaw : lawOf (i k) = shiftLaw k y) (hunit : ∀ n : Fin 128, unit n = y n.val)
    (hsome : ∀ n : Fin 128, Answers (i n.val) (unit n) 0#128)
    (hnone : ∀ s : State, legalAmount k = none → exec (i k) s = .refused (.shiftAmountUndefined k)) (s : State) :
    ObeysLaw (i k) s := by
  cases hk : legalAmount k with
  | some n =>
    obtain rfl := legalAmount_eq_some.mp hk
    exact obeysLaw_of_answers (hunit n ▸ hsome n) (hlaw.trans (shiftLaw_of_fin n y)) s
  | none =>
    rw [ObeysLaw, hlaw, shiftLaw_of_none y hk]
    exact hnone s hk

/-- Every command obeys its result law, a DIVMOD in the states that perform a command as one step (R76). -/
theorem obeysLaw {i : Instr} {s : State} (h : s.granularity = .wholeCommand ∨ ∀ a b : Value, i ≠ .divmod a b) :
    ObeysLaw i s := by
  cases i with
  | clz32 x => exact obeysLaw_of_answers (answers_clz32 x) (by rw [lawOf, clz32_eq_log2]) s
  | msb128 a =>
    by_cases ha : a = 0#128
    · subst ha
      exact obeysLaw_of_isFatal isFatal_msb128_zero rfl s
    · obtain ⟨m, hm⟩ := exists_isHighestSetBit ha
      exact obeysLaw_of_answers (answers_msb128 hm) (lawOf_msb128_of_isHighestSetBit hm) s
  | add a b => exact obeysLaw_of_answers (answers_add a b) (by rw [lawOf, add128_eq_ofNat]) s
  | sub a b => exact obeysLaw_of_answers (answers_sub a b) (by rw [lawOf, sub128_eq_ofInt]) s
  | mul a b => exact obeysLaw_of_answers (answers_mul a b) rfl s
  | sll a k =>
    exact obeysLaw_of_shift (i := .sll a) (sll128 a) (fun n => BitVec.ofNat 128 (a.toNat * 2 ^ n)) rfl
      (sll128_eq_ofNat a) (answers_sll a) exec_sll_of_none s
  | srl a k =>
    exact obeysLaw_of_shift (i := .srl a) (srl128 a) (fun n => BitVec.ofNat 128 (a.toNat / 2 ^ n)) rfl
      (srl128_eq_ofNat a) (answers_srl a) exec_srl_of_none s
  | sra a k =>
    exact obeysLaw_of_shift (i := .sra a) (sra128 a) (fun n => BitVec.ofInt 128 (a.toInt / 2 ^ n)) rfl
      (sra128_eq_ofInt a) (answers_sra a) exec_sra_of_none s
  | divmod a b =>
    by_cases hb : b = 0#128
    · subst hb
      exact obeysLaw_of_isFatal (isFatal_divmod_zero a) rfl s
    · obtain hwhole | hno := h
      · rw [ObeysLaw, lawOf_divmod hb]
        exact exec_divmod_wholeCommand a hb hwhole
      · exact absurd rfl (hno a b)

/-- The word on the command port is accepted with the abstract unit's verdict on it. -/
theorem accept_eq_transact {s : State} {w : CommandWord} (hw : s.pins.cmd = w) (hg : s.granularity = .wholeCommand) :
    s.accept = ((transact w).verdict (opOf w)).apply s := by
  cases hdec : decode w with
  | command i =>
    have hobeys : ObeysLaw i s := obeysLaw (.inl hg)
    rw [State.accept, hw, hdec, transact_of_command hdec, ← opcode_mnemonic_of_decode hdec]
    exact hobeys
  | illegal e =>
    rw [State.accept, hw, hdec, transact_of_illegal hdec]
    rfl

section Accepts

variable {s : State} {w : CommandWord} (h : s.accepts w) (hg : s.granularity = .wholeCommand)
include h hg

theorem step_eq_transact : step s = endInstant (((transact w).verdict (opOf w)).apply s) := by
  have ⟨_, _, hw⟩ := h
  rw [step_of_accepts h, accept_eq_transact hw hg]

theorem step_of_transact_respond {r : Response} (hr : transact w = .respond r) :
    step s = .next (State.tick { s with inFlight := some ⟨w, .answered r⟩ }) := by
  have ⟨_, _, hw⟩ := h
  rw [step_eq_transact h hg, hr, ← hw]
  rfl

theorem step_of_transact_fatal {c : Cause} (hc : transact w = .fatal c) :
    step s = .next (State.tick { s with status := ⟨true, c.code, opOf w⟩, inFlight := none }) := by
  rw [step_eq_transact h hg, hc]
  rfl

theorem step_of_transact_undefined {k : Int} (hk : transact w = .undefined k) :
    step s = .refused (.shiftAmountUndefined k) := by
  rw [step_eq_transact h hg, hk]
  rfl

end Accepts

/-- Settles O56: the step carries out the abstract unit's verdict on the word, in each of its three outcomes. -/
theorem machinePerformsTheAbstractUnit : Obligations.MachinePerformsTheAbstractUnit := by
  intro s w hacc hg
  cases htr : transact w with
  | respond r => exact step_of_transact_respond hacc hg htr
  | fatal c => exact step_of_transact_fatal hacc hg htr
  | undefined k => exact step_of_transact_undefined hacc hg htr

end Sys2Proof.Machine
end


section
/-! PROOFS about the invariant of the machine (spec/10_state.md R19 to R22, 45_divide.md R73 R76, 60_exceptions.md R81
R83): who raises a fatal, what is in flight, and that every step keeps both. -/

namespace Sys2Proof

/-! ### The reserved opcodes (R44) -/

theorem Mnemonic.ofOpcode_eq_none_iff {op : Byte} :
    Mnemonic.ofOpcode op = none ↔ op = 0x00#8 ∨ 0x0A#8 ≤ op := by
  refine ⟨fun h => ?_, Mnemonic.ofOpcode_of_reserved⟩
  have hout : ¬(1 ≤ op.toNat ∧ op.toNat ≤ 9) := by rw [← Mnemonic.isSome_ofOpcode_iff, h]; simp
  rw [BitVec.le_def, ← BitVec.toNat_inj]
  simp only [BitVec.toNat_ofNat]
  omega

end Sys2Proof

namespace Sys2Proof.Machine

/-! ### Who raises a fatal (R81) -/

theorem shiftLaw_ne_fatal (k : Int) (y : Nat → Value) (c : Cause) : shiftLaw k y ≠ .fatal c := by
  rw [shiftLaw]
  split
  · exact Transaction.noConfusion
  · exact Transaction.noConfusion

/-- The result laws know two fatal commands: the scan of zero and the division by zero. -/
theorem lawOf_eq_fatal {i : Instr} {c : Cause} (h : lawOf i = .fatal c) :
    (i = .msb128 0#128 ∧ c = .scanZero) ∨ ∃ a : Value, i = .divmod a 0#128 ∧ c = .divZero := by
  cases i with
  | clz32 x => exact Transaction.noConfusion h
  | msb128 a =>
    by_cases ha : a = 0#128
    · subst ha
      exact .inl ⟨rfl, (Transaction.fatal.inj h).symm⟩
    · obtain ⟨m, hm⟩ := exists_isHighestSetBit ha
      rw [lawOf_msb128_of_isHighestSetBit hm] at h
      exact Transaction.noConfusion h
  | add a b => exact Transaction.noConfusion h
  | sub a b => exact Transaction.noConfusion h
  | mul a b => exact Transaction.noConfusion h
  | sll a k => exact absurd (by rwa [lawOf] at h) (shiftLaw_ne_fatal k _ c)
  | srl a k => exact absurd (by rwa [lawOf] at h) (shiftLaw_ne_fatal k _ c)
  | sra a k => exact absurd (by rwa [lawOf] at h) (shiftLaw_ne_fatal k _ c)
  | divmod a b =>
    by_cases hb : b = 0#128
    · subst hb
      exact .inr ⟨a, rfl, (Transaction.fatal.inj h).symm⟩
    · rw [lawOf_divmod hb] at h
      exact Transaction.noConfusion h

/-- A word is fatal in three ways: DIVMOD with a zero divisor, MSB128 of zero, or a reserved `op`. -/
theorem transact_eq_fatal {w : CommandWord} {c : Cause} (h : transact w = .fatal c) :
    (c = .divZero ∧ opOf w = 0x09#8 ∧ bOf w = 0#128) ∨ (c = .scanZero ∧ opOf w = 0x02#8 ∧ aOf w = 0#128) ∨
      (c = .illegalCmd ∧ Mnemonic.ofOpcode (opOf w) = none) := by
  cases hdec : decode w with
  | illegal e =>
    rw [transact_of_illegal hdec] at h
    refine .inr (.inr ⟨(Transaction.fatal.inj h).symm, ?_⟩)
    cases hop : Mnemonic.ofOpcode (opOf w) with
    | none => rfl
    | some m => simp [decode_of_ofOpcode_eq_some hop] at hdec
  | command i =>
    rw [transact_of_command hdec] at h
    have hopcode := opcode_mnemonic_of_decode hdec
    obtain ⟨rfl, rfl⟩ | ⟨a, rfl, rfl⟩ := lawOf_eq_fatal h
    · have hop : opOf w = 0x02#8 := hopcode.symm
      rw [decode_of_opOf_msb128 hop] at hdec
      injection hdec with hi
      injection hi with hzero
      exact .inr (.inl ⟨rfl, hop, hzero⟩)
    · have hop : opOf w = 0x09#8 := hopcode.symm
      rw [decode_of_opOf_divmod hop] at hdec
      injection hdec with hi
      injection hi with _ hzero
      exact .inl ⟨rfl, hop, hzero⟩

/-- Settles O42: short of reset an instant changes STATUS only by latching the fatal of the word it accepts. -/
theorem onlyThreeCausesOfAFatal : Obligations.OnlyThreeCausesOfAFatal := by
  intro s t h hne hrst
  obtain ⟨hrst', -⟩ | ⟨-, hkept⟩ | ⟨hacc, c, hfatal, hlatched⟩ := step_status_cases h
  · simp [hrst] at hrst'
  · exact absurd hkept hne
  · rw [hlatched]
    refine ⟨hacc, rfl, rfl, ?_⟩
    obtain ⟨rfl, hop, hb⟩ | ⟨rfl, hop, ha⟩ | ⟨rfl, hop⟩ := transact_eq_fatal hfatal
    · exact .inl ⟨rfl, hop, hb⟩
    · exact .inr (.inl ⟨rfl, hop, ha⟩)
    · exact .inr (.inr ⟨rfl, Mnemonic.ofOpcode_eq_none_iff.mp hop⟩)

/-! ### STATUS is legal (R19) -/

theorem Status.legal_clear : Status.clear.Legal := ⟨rfl, rfl⟩

theorem Status.legal_of_transact_eq_fatal {w : CommandWord} {c : Cause} (h : transact w = .fatal c) :
    Status.Legal ⟨true, c.code, opOf w⟩ := by
  rw [Status.Legal, if_pos rfl]
  obtain ⟨rfl, hop, -⟩ | ⟨rfl, hop, -⟩ | ⟨rfl, hop⟩ := transact_eq_fatal h
  · exact .inl ⟨rfl, hop⟩
  · exact .inr (.inl ⟨rfl, hop⟩)
  · exact .inr (.inr ⟨rfl, hop⟩)

theorem step_status_legal {s t : State} (hs : s.status.Legal) (h : step s = .next t) : t.status.Legal := by
  obtain ⟨-, hclear⟩ | ⟨-, hkept⟩ | ⟨-, c, hfatal, hlatched⟩ := step_status_cases h
  · exact hclear ▸ Status.legal_clear
  · exact hkept ▸ hs
  · exact hlatched ▸ Status.legal_of_transact_eq_fatal hfatal

/-! ### What a command does, with the result law of its answer -/

theorem exec_divmod_perIteration {s : State} (a : Value) {b : Value} (hb : b ≠ 0#128)
    (hs : s.granularity = .perIteration) : exec (.divmod a b) s = .next (s.enterDivision (divStart a b)) := by
  simp [exec, execDivmod, hb, hs]

/-- A next state of `exec` is the answer or the fatal of the result law, or a division entered. -/
theorem exec_law_cases {i : Instr} {s t : State} (h : exec i s = .next t) :
    (∃ r : Response, lawOf i = .respond r ∧ t = s.respond r.y r.z) ∨
    (∃ c : Cause, lawOf i = .fatal c ∧ t = s.raiseFatal c i.mnemonic.opcode) ∨
    (∃ a b : Value, i = .divmod a b ∧ b ≠ 0#128 ∧ t = s.enterDivision (divStart a b)) := by
  by_cases hwhole : s.granularity = .wholeCommand ∨ ∀ a b : Value, i ≠ .divmod a b
  · have hobeys : exec i s = _ := obeysLaw hwhole
    rw [h] at hobeys
    cases hlaw : lawOf i with
    | respond r => exact .inl ⟨r, rfl, Host.Outcome.next.inj (by rw [hobeys, hlaw]; rfl)⟩
    | fatal c => exact .inr (.inl ⟨c, rfl, Host.Outcome.next.inj (by rw [hobeys, hlaw]; rfl)⟩)
    | undefined k => simp [hlaw, Transaction.verdict, Verdict.apply] at hobeys
  · push Not at hwhole
    obtain ⟨hstepped, a, b, rfl⟩ := hwhole
    by_cases hb : b = 0#128
    · subst hb
      rw [exec_divmod_zero] at h
      exact .inr (.inl ⟨.divZero, rfl, (Host.Outcome.next.inj h).symm⟩)
    · have hg : s.granularity = .perIteration := by
        cases hs : s.granularity with
        | wholeCommand => exact absurd hs hstepped
        | perIteration => rfl
      rw [exec_divmod_perIteration a hb hg] at h
      exact .inr (.inr ⟨a, b, rfl, hb, (Host.Outcome.next.inj h).symm⟩)

/-! ### What is in flight is legal (R20, R72, R73, R76) -/

theorem divStart_of_gtu {n d : Value} (h : gtu d n = true) : divStart n d = .divided 0#128 n none := if_pos h

theorem divStart_self (d : Value) : divStart d d = .divided 1#128 0#128 none := by
  simp [divStart, gtu, ltu, eq128]

theorem divStart_of_toNat_lt {n d : Value} (h : d.toNat < n.toNat) : divStart n d = .iterating (divInit n d) := by
  have hgtu : ¬gtu d n = true := by rw [gtu_iff]; omega
  have heq : ¬eq128 d n = true := by rw [eq128_iff]; rintro rfl; exact absurd h (lt_irrefl _)
  rw [divStart, if_neg hgtu, if_neg heq]

/-- START of an accepted DIVMOD enters a legal stage (R76). -/
theorem legal_divStart {cmd : CommandWord} (hop : opOf cmd = Mnemonic.divmod.opcode) (hb : bOf cmd ≠ 0#128) :
    InFlight.Legal ⟨cmd, divStart (aOf cmd) (bOf cmd)⟩ := by
  rcases Nat.lt_trichotomy (aOf cmd).toNat (bOf cmd).toNat with hlt | heq | hgt
  · rw [divStart_of_gtu ((gtu_iff _ _).mpr hlt)]
    exact ⟨hop, hb, (Nat.div_eq_of_lt hlt).symm, (Nat.mod_eq_of_lt hlt).symm, hlt.le⟩
  · have heq' : aOf cmd = bOf cmd := BitVec.eq_of_toNat_eq heq
    rw [heq', divStart_self]
    refine ⟨hop, hb, ?_, ?_, heq.le⟩
    · rw [heq, Nat.div_self (toNat_pos hb)]
      rfl
    · rw [heq, Nat.mod_self]
      rfl
  · rw [divStart_of_toNat_lt hgt]
    exact ⟨hop, hb, divInit_inLoop hb hgt⟩

/-- ITER goes from a legal stage to a legal stage (R73, R76). -/
theorem legal_divIter {cmd : CommandWord} {w : DivWork} (h : InFlight.Legal ⟨cmd, .iterating w⟩) :
    InFlight.Legal ⟨cmd, divIter w⟩ := by
  obtain ⟨hop, hb, hloop⟩ := h
  by_cases hi : w.i = 0
  · have hlast := hloop.toGo_divBody_of_eq_zero hi
    obtain ⟨hq, hr⟩ := hlast.eq_udiv_umod
    have hdd := hlast.dd_eq
    rw [pow_zero, Nat.mul_one, divBody_dd] at hdd
    rw [divIter_of_eq_zero hi, hq, hr]
    exact ⟨hop, hb, BitVec.toNat_udiv, BitVec.toNat_umod, rfl, hdd⟩
  · obtain ⟨w', hnext, -, hloop'⟩ := hloop.after_divIter hi
    rw [hnext]
    exact ⟨hop, hb, hloop'⟩

theorem transact_of_opOf_divmod {w : CommandWord} (hop : opOf w = 0x09#8) (hb : bOf w ≠ 0#128) :
    transact w = .respond ⟨(divMod (aOf w) (bOf w)).1, (divMod (aOf w) (bOf w)).2⟩ := by
  rw [transact_of_command (decode_of_opOf_divmod hop), lawOf_divmod hb]

/-- DONE responds with the answer of the command (R76). -/
theorem legal_answered_of_divided {cmd : CommandWord} {q r : Value} {rest : Option DivRest}
    (h : InFlight.Legal ⟨cmd, .divided q r rest⟩) : InFlight.Legal ⟨cmd, .answered ⟨q, r⟩⟩ := by
  obtain ⟨hop, hb, hq, hr, -⟩ := h
  obtain ⟨hq', hr'⟩ := toNat_divMod (aOf cmd) hb
  have hquot : q = (divMod (aOf cmd) (bOf cmd)).1 := BitVec.eq_of_toNat_eq (hq.trans hq'.symm)
  have hrem : r = (divMod (aOf cmd) (bOf cmd)).2 := BitVec.eq_of_toNat_eq (hr.trans hr'.symm)
  rw [hquot, hrem]
  exact transact_of_opOf_divmod hop hb

/-- What is in flight in this state, if anything, is legal. -/
def State.InFlightLegal (s : State) : Prop := ∀ f : InFlight, s.inFlight = some f → f.Legal

theorem State.inv_iff {s : State} :
    s.Inv ↔ s.status.Legal ∧ (s.status.halted = true → s.inFlight = none) ∧ s.InFlightLegal := by
  unfold State.Inv State.InFlightLegal
  cases s.inFlight with
  | none => simp
  | some f => simp

theorem State.inFlightLegal_of_none {s : State} (h : s.inFlight = none) : s.InFlightLegal :=
  fun f hf => by simp [h] at hf

theorem State.inFlightLegal_of_some {s : State} {f : InFlight} (h : s.inFlight = some f) (hf : f.Legal) :
    s.InFlightLegal :=
  fun _ hf' => Option.some.inj (h.symm.trans hf') ▸ hf

theorem State.serve_inFlightLegal {s : State} {f : InFlight} (hs : s.InFlightLegal) (hf : s.inFlight = some f) :
    (s.serve f).InFlightLegal := by
  have hlegal := hs f hf
  obtain ⟨cmd, stage⟩ := f
  obtain ⟨w, rfl, h⟩ | ⟨q, r, l, rfl, h⟩ | ⟨r, rfl, -, h⟩ | ⟨r, rfl, -, h⟩ := serve_cases s ⟨cmd, stage⟩
  all_goals rw [h]
  · exact State.inFlightLegal_of_some rfl (legal_divIter hlegal)
  · exact State.inFlightLegal_of_some rfl (legal_answered_of_divided hlegal)
  · exact State.inFlightLegal_of_none rfl
  · exact hs

theorem exec_inFlightLegal {i : Instr} {s t : State} (hdec : decode s.pins.cmd = .command i)
    (h : exec i s = .next t) : t.InFlightLegal := by
  obtain ⟨r, hlaw, rfl⟩ | ⟨c, -, rfl⟩ | ⟨a, b, rfl, hb, rfl⟩ := exec_law_cases h
  · exact State.inFlightLegal_of_some rfl ((transact_of_command hdec).trans hlaw)
  · exact State.inFlightLegal_of_none rfl
  · have hop : opOf s.pins.cmd = Mnemonic.divmod.opcode := (opcode_mnemonic_of_decode hdec).symm
    rw [decode_of_opOf_divmod hop] at hdec
    injection hdec with hi
    injection hi with ha' hb'
    subst ha' hb'
    exact State.inFlightLegal_of_some rfl (legal_divStart hop hb)

theorem step_inFlightLegal {s t : State} (hs : s.InFlightLegal) (h : step s = .next t) : t.InFlightLegal := by
  obtain ⟨-, rfl⟩ | ⟨-, -, -, rfl⟩ | ⟨f, -, -, hf, rfl⟩ | ⟨-, -, -, -, rfl⟩ |
    ⟨i, u, -, -, -, -, hdec, hu, rfl⟩ | ⟨e, -, -, -, -, -, rfl⟩ := step_cases h
  · exact State.inFlightLegal_of_none rfl
  · exact hs
  · exact State.serve_inFlightLegal hs hf
  · exact hs
  · have hlegal : u.InFlightLegal := exec_inFlightLegal hdec hu
    exact hlegal
  · exact State.inFlightLegal_of_none rfl

/-! ### A halted unit has nothing in flight (R83) -/

theorem exec_inFlight_eq_none_of_halted {i : Instr} {s t : State} (hs : s.status.halted = false)
    (h : exec i s = .next t) (ht : t.status.halted = true) : t.inFlight = none := by
  obtain ⟨r, -, rfl⟩ | ⟨c, -, rfl⟩ | ⟨a, b, -, -, rfl⟩ := exec_law_cases h
  · simp [hs] at ht
  · rfl
  · simp [hs] at ht

theorem step_inFlight_eq_none_of_halted {s t : State} (hs : s.status.halted = true → s.inFlight = none)
    (h : step s = .next t) (ht : t.status.halted = true) : t.inFlight = none := by
  obtain ⟨-, rfl⟩ | ⟨-, hh, -, rfl⟩ | ⟨f, -, hh, -, rfl⟩ | ⟨-, -, hidle, -, rfl⟩ |
    ⟨i, u, -, hh, -, -, -, hu, rfl⟩ | ⟨e, -, -, -, -, -, rfl⟩ := step_cases h
  · rfl
  · exact hs hh
  · simp [State.serve_status, hh] at ht
  · exact hidle
  · have hnone : u.inFlight = none := exec_inFlight_eq_none_of_halted hh hu ht
    exact hnone
  · rfl

/-! ### The invariant -/

/-- Settles O53: each part of the invariant is kept by each of the ways an instant can go. -/
theorem stepKeepsTheInvariant : Obligations.StepKeepsTheInvariant := by
  intro s t hinv h
  obtain ⟨hstatus, hhalted, hflight⟩ := State.inv_iff.mp hinv
  exact State.inv_iff.mpr ⟨step_status_legal hstatus h, step_inFlight_eq_none_of_halted hhalted h,
    step_inFlightLegal hflight h⟩

/-- Settles O54: reset clears STATUS and leaves nothing in flight. -/
theorem resetHasTheInvariant : Obligations.ResetHasTheInvariant :=
  State.inv_iff.mpr ⟨Status.legal_clear, fun _ => rfl, State.inFlightLegal_of_none rfl⟩

end Sys2Proof.Machine
end

section
/-! PROOFS about STATUS, reset, the halt and the handshake of the ports (spec/10_state.md, 60_exceptions.md,
70_reset_and_hazards.md), and about what a command leaves unchanged. -/

namespace Sys2Proof.Machine

/-! ### The STATUS word (R19) -/

/-- Settles O40: each field is read off the word as a number. -/
theorem statusWordLayout : Obligations.StatusWordLayout := by
  intro s
  have hword := s.toNat_statusWord
  have hcause := s.status.cause.isLt
  have hfop := s.status.fop.isLt
  have hhalted := Bool.toNat_lt s.status.halted
  have hbit : s.statusWord.getLsbD 0 = s.status.halted := by
    rw [BitVec.getLsbD, Nat.testBit_zero, hword]
    cases s.status.halted
    · simp only [Bool.toNat_false, decide_eq_false_iff_not]; omega
    · simp only [Bool.toNat_true, decide_eq_true_iff]; omega
  refine ⟨hbit, BitVec.eq_of_toNat_eq ?_, BitVec.eq_of_toNat_eq ?_, BitVec.eq_of_toNat_eq ?_, hbit.symm⟩
  all_goals
    simp only [BitVec.extractLsb'_toNat, Nat.shiftRight_eq_div_pow, BitVec.toNat_ofNat]
    omega

/-! ### The halted unit (R84) -/

theorem State.cmdReady_of_halted {s : State} (h : s.status.halted = true) : s.cmdReady = false := by
  rw [← Bool.not_eq_true, State.cmdReady_iff]
  simp [h]

theorem State.remainHalted_of_schedule {s : State} (h : s.schedule ≠ []) : s.remainHalted = .next s.tick := by
  rw [State.remainHalted]
  split
  · next hnil => exact absurd hnil h
  · rfl

theorem State.remainHalted_of_nil {s : State} (h : s.schedule = []) :
    s.remainHalted = .fault (.halted s.status.cause s.status.fop) := by
  rw [State.remainHalted, h]

theorem eq_tick_of_step_of_halted {s t : State} (hh : s.status.halted = true) (hrst : s.pins.rst = false)
    (h : step s = .next t) : t = s.tick := by
  rw [step_of_halted hrst hh] at h
  by_cases hs : s.schedule = []
  · rw [State.remainHalted_of_nil hs] at h
    simp at h
  · rw [State.remainHalted_of_schedule hs] at h
    exact (Host.Outcome.next.inj h).symm

/-- Settles O43: with `rst` released a halted unit lets the instant pass; to end the halt an instant has to change
STATUS, which only reset does to a unit that accepts nothing. -/
theorem haltedUnitAcceptsNothingUntilReset : Obligations.HaltedUnitAcceptsNothingUntilReset := by
  refine ⟨fun s hh => State.cmdReady_of_halted hh, fun s t hh hrst h => ?_, fun s hh hrst hs => ?_,
    fun s t hh h ht => ?_⟩
  · obtain rfl := eq_tick_of_step_of_halted hh hrst h
    exact ⟨rfl, rfl, rfl⟩
  · rw [step_of_halted hrst hh, State.remainHalted_of_schedule hs]
  · obtain ⟨hrst, hclear⟩ | ⟨-, hkept⟩ | ⟨hacc, -⟩ := step_status_cases h
    · rw [hclear]
      exact ⟨hrst, rfl, rfl⟩
    · simp [hkept, hh] at ht
    · exact absurd hacc (State.not_accepts_of_halted hh)

theorem State.accept_ne_fault (s : State) (f : Fault) : s.accept ≠ .fault f := by
  rw [State.accept]
  split
  · exact exec_no_fault _ s f
  · simp

theorem step_of_ready_of_not_cmdValid {s : State} (hready : s.cmdReady = true) (hv : s.pins.cmdValid = false) :
    step s = .next s.tick := by
  obtain ⟨hrst, hrun, hidle⟩ := s.cmdReady_iff.mp hready
  rw [step_of_ready hrst hrun hidle, State.awaitCommand, if_neg (by simp [hv])]

theorem step_ne_fault_of_running {s : State} (hrun : s.status.halted = false) (f : Fault) : step s ≠ .fault f := by
  cases hrst : s.pins.rst with
  | true => simp [step_of_rst hrst]
  | false =>
    cases hf : s.inFlight with
    | some g => simp [step_of_inFlight hrst hrun hf]
    | none =>
      have hready : s.cmdReady = true := s.cmdReady_iff.mpr ⟨hrst, hrun, hf⟩
      cases hv : s.pins.cmdValid with
      | false => simp [step_of_ready_of_not_cmdValid hready hv]
      | true =>
        rw [step_of_accepts ⟨hready, hv, rfl⟩]
        cases hacc : s.accept with
        | next u => simp
        | fault f' => exact absurd hacc (s.accept_ne_fault f')
        | refused r => simp

theorem State.pins_of_nil {s : State} (h : s.schedule = []) : s.pins = HostPins.idle := by
  rw [State.pins, h, List.headD_nil]

/-- Settles O44: of the ways an instant can go, only the halted unit with no more of the host to come is a fault. -/
theorem haltedRunEndsInTheFault : Obligations.HaltedRunEndsInTheFault := by
  intro s f
  constructor
  · intro h
    cases hh : s.status.halted with
    | false => exact absurd h (step_ne_fault_of_running hh f)
    | true =>
      cases hrst : s.pins.rst with
      | true => simp [step_of_rst hrst] at h
      | false =>
        rw [step_of_halted hrst hh] at h
        by_cases hs : s.schedule = []
        · rw [State.remainHalted_of_nil hs] at h
          exact ⟨rfl, hs, (Host.Outcome.fault.inj h).symm⟩
        · simp [State.remainHalted_of_schedule hs] at h
  · rintro ⟨hh, hs, rfl⟩
    have hrst : s.pins.rst = false := by rw [State.pins_of_nil hs]; rfl
    rw [step_of_halted hrst hh, State.remainHalted_of_nil hs]

/-! ### Reset (R90, R91) -/

theorem State.respValid_of_response_none {s : State} (h : s.response = none) : s.respValid = false := by
  rw [State.respValid_eq, h, Option.isSome_none]

theorem State.statusWord_of_clear {s : State} (h : s.status = Status.clear) : s.statusWord = 0x0000#16 := by
  rw [State.statusWord, h]
  rfl

/-- Settles O47: `rst` is read before anything else, and what it leaves is cleared, idle and so ready. -/
theorem resetOverridesEverything : Obligations.ResetOverridesEverything := by
  intro s hrst
  have hready : s.cmdReady = false := by
    rw [← Bool.not_eq_true, State.cmdReady_iff]
    simp [hrst]
  refine ⟨hready, State.respValid_of_response_none (s.response_of_rst hrst), step_of_rst hrst, fun t h => ?_⟩
  rw [step_of_rst hrst] at h
  obtain rfl := Host.Outcome.next.inj h
  exact ⟨rfl, rfl, State.statusWord_of_clear rfl, rfl, rfl,
    State.respValid_of_response_none (State.response_of_none _ rfl), rfl,
    fun hreleased => (State.cmdReady_iff _).mpr ⟨hreleased, rfl, rfl⟩⟩

/-- Settles O48: the fields of the reset state, and the pins that are views of them. -/
theorem resetStateIsIdle : Obligations.ResetStateIsIdle :=
  ⟨State.statusWord_of_clear rfl, rfl, rfl, rfl, rfl, rfl, rfl,
    State.respValid_of_response_none (State.response_of_none _ rfl), (State.cmdReady_iff _).mpr ⟨rfl, rfl, rfl⟩⟩

/-! ### What a command leaves unchanged -/

theorem exec_host_frame {i : Instr} {s t : State} (h : exec i s = .next t) :
    t.schedule = s.schedule ∧ t.taken = s.taken ∧ t.granularity = s.granularity ∧ t.instant = s.instant := by
  obtain ⟨y, z, rfl⟩ | ⟨-, rfl⟩ | ⟨a, -, rfl⟩ | ⟨a, b, -, -, -, rfl⟩ := exec_cases h
  · exact ⟨rfl, rfl, rfl, rfl⟩
  · exact ⟨rfl, rfl, rfl, rfl⟩
  · exact ⟨rfl, rfl, rfl, rfl⟩
  · exact ⟨rfl, rfl, rfl, rfl⟩

theorem exec_enters_of_not_fatal {i : Instr} {s t : State} (hscan : i ≠ .msb128 0#128)
    (hdiv : ∀ a : Value, i ≠ .divmod a 0#128) (h : exec i s = .next t) :
    t.status = s.status ∧ ∃ g : Stage, t.inFlight = some ⟨s.pins.cmd, g⟩ := by
  obtain ⟨y, z, rfl⟩ | ⟨hi, -⟩ | ⟨a, hi, -⟩ | ⟨a, b, -, -, -, rfl⟩ := exec_cases h
  · exact ⟨rfl, _, rfl⟩
  · exact absurd hi hscan
  · exact absurd hi (hdiv a)
  · exact ⟨rfl, _, rfl⟩

theorem eq_of_isFatal {i : Instr} {c : Cause} {op : Byte} {s t : State} (hfatal : IsFatal i c op)
    (h : exec i s = .next t) : t.inFlight = none ∧ t.status = ⟨true, c.code, op⟩ := by
  rw [hfatal s] at h
  obtain rfl := Host.Outcome.next.inj h
  exact ⟨rfl, rfl⟩

theorem shiftLaw_eq_respond {k : Int} {y : Nat → Value} {r : Response} (h : shiftLaw k y = .respond r) :
    r.z = 0#128 := by
  rw [shiftLaw] at h
  split at h
  · obtain rfl := Transaction.respond.inj h
    rfl
  · exact Transaction.noConfusion h

/-- The secondary result is DIVMOD's alone (R41). -/
theorem z_eq_zero_of_lawOf_eq_respond {i : Instr} {r : Response} (hdiv : ∀ a b : Value, i ≠ .divmod a b)
    (h : lawOf i = .respond r) : r.z = 0#128 := by
  cases i with
  | clz32 x => exact Transaction.respond.inj h ▸ rfl
  | msb128 a =>
    rw [lawOf] at h
    split at h
    · exact Transaction.noConfusion h
    · exact Transaction.respond.inj h ▸ rfl
  | add a b => exact Transaction.respond.inj h ▸ rfl
  | sub a b => exact Transaction.respond.inj h ▸ rfl
  | mul a b => exact Transaction.respond.inj h ▸ rfl
  | sll a k => exact shiftLaw_eq_respond (by rwa [lawOf] at h)
  | srl a k => exact shiftLaw_eq_respond (by rwa [lawOf] at h)
  | sra a k => exact shiftLaw_eq_respond (by rwa [lawOf] at h)
  | divmod a b => exact absurd rfl (hdiv a b)

theorem exec_answers_with_zero {i : Instr} {s t : State} (hdiv : ∀ a b : Value, i ≠ .divmod a b)
    (hscan : i ≠ .msb128 0#128) (h : exec i s = .next t) :
    ∃ y : Value, t.inFlight = some ⟨s.pins.cmd, .answered ⟨y, 0#128⟩⟩ := by
  obtain ⟨r, hlaw, rfl⟩ | ⟨c, hlaw, -⟩ | ⟨a, b, hi, -, -⟩ := exec_law_cases h
  · exact ⟨r.y, by rw [State.respond_inFlight, z_eq_zero_of_lawOf_eq_respond hdiv hlaw]⟩
  · obtain ⟨hi, -⟩ | ⟨a, hi, -⟩ := lawOf_eq_fatal hlaw
    · exact absurd hi hscan
    · exact absurd hi (hdiv a _)
  · exact absurd hi (hdiv a b)

/-- Settles O50: every way a command can go is an update of STATUS and of the in-flight record, and which one it is
turns on the two fatal commands. -/
theorem execFrame : Obligations.ExecFrame := by
  intro i s t h
  obtain ⟨hschedule, htaken, hgranularity, hinstant⟩ := exec_host_frame h
  refine ⟨hschedule, htaken, hgranularity, hinstant, fun hscan hdiv => exec_enters_of_not_fatal hscan hdiv h, ?_, ?_,
    fun hdiv hscan => exec_answers_with_zero hdiv hscan h⟩
  · rintro rfl
    exact eq_of_isFatal isFatal_msb128_zero h
  · rintro a rfl
    exact eq_of_isFatal (isFatal_divmod_zero a) h

/-- Settles O52: an accepted word is decoded and run, and the end of the instant drops the host's pins of this instant,
which the command has left alone; `withFetchWord` presents the word itself to a unit made ready. -/
theorem stepRunsTheDecodedCommand : Obligations.StepRunsTheDecodedCommand := by
  have hrun : ∀ (s : State) (w : CommandWord) (i : Instr), s.accepts w → decode w = .command i →
      step s = endInstant (exec i s) := by
    intro s w i hacc hdec
    have ⟨_, _, hw⟩ := hacc
    rw [step_of_accepts hacc, State.accept, hw, hdec]
  refine ⟨hrun, fun s t w i hacc hdec h => ?_, fun s w => ?_⟩
  · obtain ⟨hschedule, -, -, hinstant⟩ := exec_host_frame h
    rw [hrun s w i hacc hdec, h, endInstant_next, State.tick, hschedule, hinstant]
  · rw [State.withFetchWord, tableWord_toNat]
    refine ⟨(State.cmdReady_iff _).mpr ⟨rfl, ?_, rfl⟩, rfl, rfl⟩
    rw [State.presents_status]
    split
    · rfl
    · next hrunning => exact Bool.not_eq_true _ ▸ hrunning

/-! ### The response port (R20, R94) -/

theorem State.respPins_of_response_some {s : State} {r : Response} (h : s.response = some r) :
    s.respPins = r.y ++ r.z := by
  rw [State.respPins, h]
  rfl

theorem State.respPins_of_response_none {s : State} (h : s.response = none) :
    s.respPins = Config.idleResponse s.instant := by
  rw [State.respPins, h]

theorem State.response_of_not_answered {s : State} {cmd : CommandWord} {g : Stage} (hf : s.inFlight = some ⟨cmd, g⟩)
    (hg : ∀ r : Response, g ≠ .answered r) : s.response = none := by
  cases hr : s.response with
  | none => rfl
  | some r =>
    obtain ⟨-, cmd', hf'⟩ := (s.response_eq_some_iff r).mp hr
    rw [hf] at hf'
    injection hf' with heq
    injection heq with _ hstage
    exact absurd hstage (hg r)

/-- Settles O51: with no response in flight the pins show only STATUS, whether something is in flight, and the free
value of the instant. -/
theorem dividerIsHidden : Obligations.DividerIsHidden := by
  intro s cmd g g' hg
  have hnone : State.response { s with inFlight := some ⟨cmd, g⟩ } = none :=
    State.response_of_not_answered rfl fun r => (hg r).1
  have hnone' : State.response { s with inFlight := some ⟨cmd, g'⟩ } = none :=
    State.response_of_not_answered rfl fun r => (hg r).2
  refine ⟨rfl, ?_, ?_, rfl, rfl⟩
  · rw [State.respValid_of_response_none hnone, State.respValid_of_response_none hnone']
  · rw [State.respPins_of_response_none hnone, State.respPins_of_response_none hnone']

section Answered

variable {s : State} {cmd : CommandWord} {r : Response} (hrst : s.pins.rst = false)
  (hf : s.inFlight = some ⟨cmd, .answered r⟩)
include hrst hf

theorem State.response_of_answered : s.response = some r :=
  (s.response_eq_some_iff r).mpr ⟨hrst, cmd, hf⟩

theorem State.respValid_of_answered : s.respValid = true := by
  rw [State.respValid_eq, State.response_of_answered hrst hf, Option.isSome_some]

theorem State.respPins_of_answered : s.respPins = r.y ++ r.z :=
  State.respPins_of_response_some (State.response_of_answered hrst hf)

theorem step_of_answered_not_taken (hrun : s.status.halted = false) (hready : s.pins.respReady = false) :
    step s = .next s.tick := by
  rw [step_of_inFlight hrst hrun hf, State.serve]
  simp [hready]

theorem step_of_answered_taken (hrun : s.status.halted = false) (hready : s.pins.respReady = true) :
    step s = .next (s.takeResponse r).tick := by
  rw [step_of_inFlight hrst hrun hf, State.serve]
  simp [hready]

end Answered

/-- Settles O49: a ready unit accepts what is presented, and a response in flight is on the port in every instant with
`rst` released, until one in which it is taken. -/
theorem handshakeOfThePorts : Obligations.HandshakeOfThePorts := by
  refine ⟨fun s => ?_, fun s hready hv => step_of_accepts ⟨hready, hv, rfl⟩,
    fun s hready hv => step_of_ready_of_not_cmdValid hready hv, fun s cmd r hrst hrun hf => ?_⟩
  · rw [State.cmdReady_iff, State.busy_eq, Option.isSome_eq_false_iff, Option.isNone_iff_eq_none]
  · refine ⟨State.respValid_of_answered hrst hf, State.respPins_of_answered hrst hf,
      fun hready => ⟨step_of_answered_not_taken hrst hf hrun hready, rfl, fun hnext => ?_⟩,
      fun hready => step_of_answered_taken hrst hf hrun hready⟩
    have hheld : s.tick.inFlight = some ⟨cmd, .answered r⟩ := hf
    exact ⟨State.respValid_of_answered hnext hheld,
      (State.respPins_of_answered hnext hheld).trans (State.respPins_of_answered hrst hf).symm⟩

/-! ### Transfers (R94) -/

/-- The response transferred in this instant, if one is: valid and ready (R94). -/
def State.transferred (s : State) : List Response :=
  if s.respValid = true ∧ s.pins.respReady = true then s.response.toList else []

theorem State.transferred_of_response_none {s : State} (h : s.response = none) : s.transferred = [] := by
  rw [State.transferred, h, Option.toList_none, ite_self]

theorem State.transferred_of_not_respReady {s : State} (h : s.pins.respReady = false) : s.transferred = [] := by
  rw [State.transferred, if_neg (by simp [h])]

theorem State.transferred_of_response_some {s : State} {r : Response} (h : s.response = some r)
    (hready : s.pins.respReady = true) : s.transferred = [r] := by
  rw [State.transferred, if_pos ⟨by rw [State.respValid_eq, h, Option.isSome_some], hready⟩, h, Option.toList_some]

theorem State.serve_taken {s : State} {f : InFlight} (hrst : s.pins.rst = false) (hf : s.inFlight = some f) :
    (s.serve f).taken = s.taken ++ s.transferred := by
  obtain ⟨cmd, stage⟩ := f
  obtain ⟨w, rfl, h⟩ | ⟨q, r, l, rfl, h⟩ | ⟨r, rfl, hready, h⟩ | ⟨r, rfl, hready, h⟩ := serve_cases s ⟨cmd, stage⟩
  all_goals rw [h]
  · rw [State.transferred_of_response_none (State.response_of_not_answered hf (by simp)), List.append_nil]
  · rw [State.transferred_of_response_none (State.response_of_not_answered hf (by simp)), List.append_nil]
  · rw [State.transferred_of_response_some (State.response_of_answered hrst hf) hready, State.takeResponse_taken]
  · rw [State.transferred_of_not_respReady hready, List.append_nil]

theorem State.serve_inFlight_cmd {s : State} {f f' : InFlight} (hf : s.inFlight = some f)
    (h : (s.serve f).inFlight = some f') : f'.cmd = f.cmd := by
  obtain ⟨w, -, hserve⟩ | ⟨q, r, l, -, hserve⟩ | ⟨r, -, -, hserve⟩ | ⟨r, -, -, hserve⟩ := serve_cases s f
  all_goals rw [hserve] at h
  · exact Option.some.inj h ▸ rfl
  · exact Option.some.inj h ▸ rfl
  · simp at h
  · exact Option.some.inj (h.symm.trans hf) ▸ rfl

/-- An instant of a unit whose halt leaves nothing in flight transfers the response on the port, if valid and ready. -/
theorem step_taken {s t : State} (hhalted : s.status.halted = true → s.inFlight = none) (h : step s = .next t) :
    t.taken = s.taken ++ s.transferred := by
  have hidle (hnone : s.response = none) : s.taken = s.taken ++ s.transferred := by
    rw [State.transferred_of_response_none hnone, List.append_nil]
  obtain ⟨hrst, rfl⟩ | ⟨-, hh, -, rfl⟩ | ⟨f, hrst, -, hf, rfl⟩ | ⟨-, -, hf, -, rfl⟩ |
    ⟨i, u, -, -, hf, -, -, hu, rfl⟩ | ⟨e, -, -, hf, -, -, rfl⟩ := step_cases h
  · exact hidle (s.response_of_rst hrst)
  · exact hidle (s.response_of_none (hhalted hh))
  · exact State.serve_taken hrst hf
  · exact hidle (s.response_of_none hf)
  · obtain ⟨-, htaken, -, -⟩ := exec_host_frame hu
    exact htaken.trans (hidle (s.response_of_none hf))
  · exact hidle (s.response_of_none hf)

/-- Without a command valid and ready, what is in flight after an instant was in flight before. -/
theorem step_inFlight_of_not_accepting {s t : State} (hport : s.cmdReady = false ∨ s.pins.cmdValid = false)
    (h : step s = .next t) {f : InFlight} (hf' : t.inFlight = some f) : ∃ g : Stage, s.inFlight = some ⟨f.cmd, g⟩ := by
  have hno : ¬(s.cmdReady = true ∧ s.pins.cmdValid = true) := by
    rintro ⟨hready, hv⟩
    simp [hready, hv] at hport
  obtain ⟨-, rfl⟩ | ⟨-, -, -, rfl⟩ | ⟨f₀, -, -, hf, rfl⟩ | ⟨-, -, -, -, rfl⟩ |
    ⟨i, u, hrst, hrun, hf, hv, -, -, rfl⟩ | ⟨e, -, -, -, -, -, rfl⟩ := step_cases h
  · simp at hf'
  · exact ⟨f.stage, hf'⟩
  · rw [State.serve_inFlight_cmd hf hf']
    exact ⟨f₀.stage, hf⟩
  · exact ⟨f.stage, hf'⟩
  · exact absurd ⟨s.cmdReady_iff.mpr ⟨hrst, hrun, hf⟩, hv⟩ hno
  · simp at hf'

/-- Settles O59: each way an instant can go transfers what is on the port or leaves it, and only acceptance brings a
command in flight or latches STATUS. -/
theorem transfersHappenWhenValidAndReady : Obligations.TransfersHappenWhenValidAndReady := by
  intro s t hhalted h
  refine ⟨step_taken hhalted h, fun hport => ⟨fun f => step_inFlight_of_not_accepting hport h, ?_⟩⟩
  obtain ⟨hrst, hclear⟩ | ⟨-, hkept⟩ | ⟨⟨hready, hv, -⟩, -⟩ := step_status_cases h
  · exact .inr ⟨hrst, hclear⟩
  · exact .inl hkept
  · simp [hready, hv] at hport

end Sys2Proof.Machine
end

section
/-! PROOFS about the bit scans (spec/41_bitscan.md): the scanner built from 32-bit counts (R52) and the laws of the
scans (R54). -/

namespace Sys2Proof.Machine

/-! ### The highest set bit of a pattern and of its parts -/

section Parts

variable {n p k : Nat} {x : BitVec n} (h : IsHighestSetBit x p)
include h

theorem IsHighestSetBit.upper_part (hk : k ≤ p) {m : Nat} (hm : k + m = n) :
    IsHighestSetBit (x.extractLsb' k m) (p - k) := by
  have hlt := h.lt
  obtain ⟨hset, habove⟩ := h
  constructor
  · simp [show p - k < m by omega, Nat.add_sub_cancel' hk, hset]
  · intro j hj
    simp [habove (k + j) (by omega)]

theorem IsHighestSetBit.upper_part_eq_zero (hk : p < k) (m : Nat) : x.extractLsb' k m = 0#m := by
  refine BitVec.eq_of_getLsbD_eq fun i _ => ?_
  simp [h.2 (k + i) (by omega)]

theorem IsHighestSetBit.lower_part (hk : p < k) : IsHighestSetBit (x.extractLsb' 0 k) p := by
  obtain ⟨hset, habove⟩ := h
  constructor
  · simp [hk, hset]
  · intro j hj
    simp [habove j hj]

theorem IsHighestSetBit.setWidth {m : Nat} (hm : n ≤ m) : IsHighestSetBit (x.setWidth m) p := by
  have hlt := h.lt
  obtain ⟨hset, habove⟩ := h
  constructor
  · simp [show p < m by omega, hset]
  · intro j hj
    simp [habove j hj]

theorem IsHighestSetBit.shiftLeft (hk : p + k < n) : IsHighestSetBit (x <<< k) (p + k) := by
  obtain ⟨hset, habove⟩ := h
  constructor
  · simp [hk, hset]
  · intro j hj
    simp [habove (j - k) (by omega)]

end Parts

/-! ### The scanner built from 32-bit counts (R52) -/

theorem clz64_of_isHighestSetBit {w : Half} {p : Nat} (h : IsHighestSetBit w p) : clz64 w = 63 - p := by
  rcases Nat.lt_or_ge p 32 with hlow | hhigh
  · have hzero : upperLimb w = 0#32 := h.upper_part_eq_zero hlow 32
    have hlower : clz32 (lowerLimb w) = 31 - p := clz32_of_isHighestSetBit (h.lower_part hlow)
    rw [clz64, if_neg (not_not.mpr hzero), hlower]
    omega
  · have hupper : IsHighestSetBit (upperLimb w) (p - 32) := h.upper_part hhigh (by decide)
    rw [clz64, if_pos hupper.ne_zero, clz32_of_isHighestSetBit hupper]
    omega

theorem clz64_zero : clz64 0#64 = 64 := by decide

/-- The upper half decides where the highest set bit of a value is, unless it is zero. -/
theorem high_low_of_isHighestSetBit {n : Value} {p : Nat} (h : IsHighestSetBit n p) :
    (high n = 0#64 ∧ IsHighestSetBit (low n) p) ∨ (64 ≤ p ∧ IsHighestSetBit (high n) (p - 64)) := by
  rcases Nat.lt_or_ge p 64 with hlow | hhigh
  · exact .inl ⟨h.upper_part_eq_zero hlow 64, h.lower_part hlow⟩
  · exact .inr ⟨hhigh, h.upper_part hhigh (by decide)⟩

theorem clz128_of_isHighestSetBit {n : Value} {p : Nat} (h : IsHighestSetBit n p) : clz128 n = 127 - p := by
  obtain ⟨hzero, hlow⟩ | ⟨hge, hhigh⟩ := high_low_of_isHighestSetBit h
  · have hlt := hlow.lt
    rw [clz128, if_neg (not_not.mpr hzero), clz64_of_isHighestSetBit hlow]
    omega
  · rw [clz128, if_pos hhigh.ne_zero, clz64_of_isHighestSetBit hhigh]
    omega

theorem clz128_zero : clz128 0#128 = 128 := by decide

/-- A count that is `width - 1 - p` at the highest set bit `p`, and the width at zero, is at most the width, and that at
zero alone. -/
theorem clz_le_and_eq_iff {width : Nat} {clz : BitVec width → Nat} (hwidth : 0 < width) (hzero : clz 0#width = width)
    (hclz : ∀ {x : BitVec width} {p : Nat}, IsHighestSetBit x p → clz x = width - 1 - p) (x : BitVec width) :
    clz x ≤ width ∧ (clz x = width ↔ x = 0#width) := by
  by_cases hx : x = 0#width
  · rw [hx, hzero]
    exact ⟨le_rfl, iff_of_true rfl rfl⟩
  · obtain ⟨p, hp⟩ := exists_isHighestSetBit hx
    rw [hclz hp]
    exact ⟨by omega, iff_of_false (by omega) hx⟩

/-- Settles O15: each count is taken from the highest set bit of the part it falls in, and so is the index. -/
theorem scannerStructureFindsTheHighestSetBit : Obligations.ScannerStructureFindsTheHighestSetBit := by
  refine ⟨fun w => ⟨rfl, clz_le_and_eq_iff (by decide) clz64_zero clz64_of_isHighestSetBit w⟩,
    fun n => ⟨rfl, clz_le_and_eq_iff (by decide) clz128_zero clz128_of_isHighestSetBit n⟩, fun n hn => ?_⟩
  have htop := isHighestSetBit_msb128 hn
  have hlt := htop.lt
  refine ⟨by rw [clz128_of_isHighestSetBit htop]; omega, fun hne => ?_, fun heq => ?_⟩
  · obtain ⟨hzero, -⟩ | ⟨hge, hhigh⟩ := high_low_of_isHighestSetBit htop
    · exact absurd hzero hne
    · rw [clz64_of_isHighestSetBit hhigh]
      omega
  · obtain ⟨-, hlow⟩ | ⟨-, hhigh⟩ := high_low_of_isHighestSetBit htop
    · have hlt64 := hlow.lt
      rw [clz64_of_isHighestSetBit hlow]
      omega
    · exact absurd heq hhigh.ne_zero

/-! ### The laws of the scans (R54) -/

/-- Settles O16: the laws say in powers of two where the highest set bit is; a left shift moves it. -/
theorem bitScanLaws : Obligations.BitScanLaws := by
  refine ⟨fun n hn => ⟨two_pow_msb128_le hn, lt_two_pow_msb128_succ hn⟩, fun x => ?_, fun x hx => ?_,
    fun n k hn hk => ?_⟩
  · by_cases hx : x = 0#32
    · rw [hx, clz32_zero]
      decide
    · obtain ⟨p, hp⟩ := exists_isHighestSetBit hx
      have hlt := hp.lt
      have hbits : 32 - clz32 x = p + 1 := by rw [clz32_of_isHighestSetBit hp]; omega
      rw [hbits]
      exact hp.lt_two_pow_succ
  · obtain ⟨p, hp⟩ := exists_isHighestSetBit hx
    have hlt := hp.lt
    have hbits : 31 - clz32 x = p := by rw [clz32_of_isHighestSetBit hp]; omega
    rw [hbits]
    exact ⟨hp.two_pow_le, msb128_of_isHighestSetBit (hp.setWidth (by decide))⟩
  · have htop := isHighestSetBit_msb128 hn
    have hlt := htop.lt
    rw [sll128_eq]
    exact msb128_of_isHighestSetBit (htop.shiftLeft (by omega))

end Sys2Proof.Machine
end

section
/-! PROOFS about the laws of addition and subtraction (spec/42_add_subtract.md R55 to R59), of the multiplier and its
datapaths (spec/43_multiply.md R61 to R64), and of the shifts (spec/44_shift.md R70). -/

namespace Sys2Proof.Machine

/-! ### Addition and subtraction (R55, R56, R57, R59) -/

/-- Settles O19: the datapaths are addition and subtraction of bit vectors, whose laws these are. -/
theorem additionLaws : Obligations.AdditionLaws := by
  simp only [Obligations.AdditionLaws, add128_eq, sub128_eq]
  refine ⟨fun a b c => ⟨BitVec.add_comm a b, BitVec.add_assoc a b c, BitVec.add_zero a⟩, fun a b => ⟨?_, ?_, ?_⟩⟩
  · rw [BitVec.add_assoc, ← BitVec.neg_eq_not_add, BitVec.sub_eq_add_neg]
  · rw [BitVec.zero_sub, BitVec.sub_eq_add_neg]
  · rw [BitVec.zero_sub, BitVec.add_right_neg]

/-- The sum of two halves wraps below either of them exactly when there is a carry. -/
theorem carry_add64_iff (p q : Half) :
    ((add64 p q false).2 = true ↔ (add64 p q false).1.toNat < p.toNat) ∧
    ((add64 p q false).2 = true ↔ (add64 p q false).1.toNat < q.toNat) := by
  have hspec := add64_spec p q false
  have hp := p.isLt
  have hq := q.isLt
  cases hc : (add64 p q false).2 <;> simp only [hc, Bool.toNat_false, Bool.toNat_true] at hspec
  · simp only [Bool.false_eq_true, false_iff]
    omega
  · simp only [true_iff]
    omega

theorem borrow_sub64_iff (p q : Half) : (sub64 p q false).2 = true ↔ p.toNat < q.toNat := by
  simp [sub64]

/-- Settles O20: the tests and the exact results are read off the specification of the 64-bit primitives. -/
theorem carryAndBorrowHaveTheirTests : Obligations.CarryAndBorrowHaveTheirTests := by
  refine ⟨fun p q => ?_, fun p q c => ⟨(add64_spec p q c).symm, (sub64_spec p q c).symm⟩,
    fun a b => ⟨add128_eq a b, sub128_eq a b⟩⟩
  obtain ⟨hp, hq⟩ := carry_add64_iff p q
  exact ⟨hp, hq, borrow_sub64_iff p q⟩

theorem add128_eq_zero_iff (a y : Value) : add128 a y = 0#128 ↔ y = sub128 0#128 a := by
  rw [add128_eq, sub128_eq, BitVec.zero_sub, eq_comm (a := y)]
  exact add_eq_zero_iff_neg_eq

theorem ofInt_neg_toInt (a : Value) : BitVec.ofInt 128 (-a.toInt) = BitVec.ofNat 128 (2 ^ 128 - a.toNat) := by
  rw [← sub128_zero_left, sub128_eq, BitVec.zero_sub]
  apply BitVec.eq_of_toNat_eq
  rw [BitVec.toNat_neg, BitVec.toNat_ofNat]

/-- Settles O22: the subtractor's result from zero is the negation of the pattern, the one inverse under addition. -/
theorem negationIsSubtractionFromZero : Obligations.NegationIsSubtractionFromZero := by
  refine ⟨fun a => ⟨rfl, sub128_zero_left a ▸ answers_sub 0#128 a, ofInt_neg_toInt a, add128_eq_zero_iff a⟩,
    answers_sub_of_eq (by decide), answers_sub_of_eq (by decide), answers_sub_of_eq (by decide), by decide, by decide,
    by decide +kernel⟩

/-! ### The multiplier's datapaths (R61, R62) -/

theorem toNat_half_eq_limbs (p : Half) : p.toNat = (upperLimb p).toNat * 2 ^ 32 + (lowerLimb p).toNat := by
  rw [toNat_upperLimb, toNat_lowerLimb]
  omega

theorem toNat_value_eq_limbs (x : Value) :
    x.toNat = (limb x 0).toNat + (limb x 1).toNat * 2 ^ 32 + (limb x 2).toNat * (2 ^ 32) ^ 2 +
      (limb x 3).toNat * (2 ^ 32) ^ 3 := by
  have := x.isLt
  simp only [toNat_limb]
  omega

/-- The product of two halves, from the four products of their limbs. -/
theorem toNat_mul_halves (p q : Half) :
    p.toNat * q.toNat =
      (mul32 (lowerLimb p) (lowerLimb q)).toNat +
      ((mul32 (lowerLimb p) (upperLimb q)).toNat + (mul32 (upperLimb p) (lowerLimb q)).toNat) * 2 ^ 32 +
      (mul32 (upperLimb p) (upperLimb q)).toNat * 2 ^ 64 := by
  simp only [toNat_mul32]
  rw [toNat_half_eq_limbs p, toNat_half_eq_limbs q]
  ring

/-- The product of two values, from the products of their halves. -/
theorem toNat_mul_values (a b : Value) :
    a.toNat * b.toNat = (high a).toNat * (high b).toNat * 2 ^ 128 +
      ((high a).toNat * (low b).toNat + (low a).toNat * (high b).toNat) * 2 ^ 64 + (low a).toNat * (low b).toNat := by
  rw [toNat_eq_halves a, toNat_eq_halves b]
  ring

theorem ofNat_add_mul_two_pow {n : Nat} (x y : Nat) : BitVec.ofNat n (x + y * 2 ^ n) = BitVec.ofNat n x := by
  apply BitVec.eq_of_toNat_eq
  rw [BitVec.toNat_ofNat, BitVec.toNat_ofNat, Nat.add_mul_mod_self_right]

/-- A high half counted modulo 2^64 is enough for a value modulo 2^128. -/
theorem mk_ofNat (x : Nat) (l : Half) : mk (BitVec.ofNat 64 x) l = BitVec.ofNat 128 (x * 2 ^ 64 + l.toNat) := by
  have := l.isLt
  apply BitVec.eq_of_toNat_eq
  rw [toNat_mk, BitVec.toNat_ofNat, BitVec.toNat_ofNat]
  omega

/-- An accumulation step adds its partial product at weight 2^32. -/
theorem mk_accumulate (acc : Half × Half) (p : Half) :
    mk (accumulate acc p).1 (accumulate acc p).2 = mk acc.1 acc.2 + BitVec.ofNat 128 (p.toNat * 2 ^ 32) := by
  have hlow := add64_spec acc.2 (shl64 p 32) false
  have hleft : (shl64 p 32).toNat = p.toNat * 2 ^ 32 % 2 ^ 64 := toNat_shl64 p 32
  have hright : (shr64 p 32).toNat = p.toNat / 2 ^ 32 := toNat_shr64 p 32
  rw [hleft, Bool.toNat_false] at hlow
  rw [accumulate, mk_ofNat, hright]
  apply BitVec.eq_of_toNat_eq
  rw [BitVec.toNat_add, toNat_mk, BitVec.toNat_ofNat, BitVec.toNat_ofNat]
  dsimp only
  omega

/-- The low product of two values needs of the cross products 64 bits and nothing of the product of the high halves. -/
theorem mul128_eq_halves (a b : Value) :
    mul128 a b = BitVec.ofNat 128 ((low a).toNat * (low b).toNat + (crossTerms a b).toNat * 2 ^ 64) := by
  have hprod := toNat_mul_values a b
  apply BitVec.eq_of_toNat_eq
  rw [toNat_mul128, BitVec.toNat_ofNat, crossTerms, BitVec.toNat_ofNat, hprod]
  omega

theorem mulWidening_eq (a b : Value) : mulWidening a b = mul128 a b := by
  have hlow : (low a).toNat * (low b).toNat < 2 ^ 128 := by
    have ha := (low a).isLt
    have hb := (low b).isLt
    calc (low a).toNat * (low b).toNat
      _ < 2 ^ 64 * 2 ^ 64 := Nat.mul_lt_mul'' ha hb
      _ = 2 ^ 128 := by norm_num
  have hp : (BitVec.ofNat 128 ((low a).toNat * (low b).toNat)).toNat = (low a).toNat * (low b).toNat :=
    Nat.mod_eq_of_lt hlow
  have hhalves := toNat_eq_halves (BitVec.ofNat 128 ((low a).toNat * (low b).toNat))
  rw [hp] at hhalves
  rw [mulWidening, mk_ofNat, mul128_eq_halves]
  congr 1
  omega

theorem mulLimbs_eq (a b : Value) : mulLimbs a b = mul128 a b := by
  have hlow := toNat_mul_halves (low a) (low b)
  rw [mulLimbs, mk_accumulate, mk_accumulate, mk_ofNat, ← BitVec.ofNat_add, ← BitVec.ofNat_add, mul128_eq_halves]
  dsimp only
  congr 1
  omega

/-- The limb products of weight below 2^128 (R61). -/
def keptLimbProducts (a b : Value) : Nat :=
  (([(0, 0), (0, 1), (0, 2), (0, 3), (1, 0), (1, 1), (1, 2), (2, 0), (2, 1), (3, 0)] : List (Nat × Nat)).map
    fun ij => (limb a ij.1).toNat * (limb b ij.2).toNat * 2 ^ (32 * (ij.1 + ij.2))).sum

/-- The other limb products, in units of 2^128. -/
def droppedLimbProducts (a b : Value) : Nat :=
  (([(1, 3), (2, 2), (2, 3), (3, 1), (3, 2), (3, 3)] : List (Nat × Nat)).map
    fun ij => (limb a ij.1).toNat * (limb b ij.2).toNat * 2 ^ (32 * (ij.1 + ij.2 - 4))).sum

theorem toNat_mul_limbs (a b : Value) :
    a.toNat * b.toNat = keptLimbProducts a b + droppedLimbProducts a b * 2 ^ 128 := by
  obtain ⟨radix, hradix⟩ : ∃ radix : Nat, 2 ^ 32 = radix := ⟨_, rfl⟩
  have hweight (n : Nat) : 2 ^ (32 * n) = radix ^ n := by rw [pow_mul, hradix]
  rw [toNat_value_eq_limbs a, toNat_value_eq_limbs b, hradix, show 2 ^ 128 = radix ^ 4 from hweight 4]
  simp only [keptLimbProducts, droppedLimbProducts, hweight]
  simp only [List.map_cons, List.map_nil, List.sum_cons, List.sum_nil]
  ring

theorem mul128_eq_keptLimbProducts (a b : Value) : mul128 a b = BitVec.ofNat 128 (keptLimbProducts a b) := by
  rw [mul128, toNat_mul_limbs, ofNat_add_mul_two_pow]

/-- Settles O24: both the datapath and the product are a low product of halves with cross terms at weight 2^64, the
first with that low product accumulated from limbs. -/
theorem limbMultiplierIsTheMultiplier : Obligations.LimbMultiplierIsTheMultiplier := by
  refine fun a b => ⟨mulLimbs_eq a b, toNat_mul_values a b, toNat_mul_halves (low a) (low b), fun p q => ?_,
    mul128_eq_keptLimbProducts a b⟩
  rw [toNat_mul_halves p q, ofNat_add_mul_two_pow]

/-- Settles O25: the widening multiply is the exact product of the low halves. -/
theorem wideningMultiplierAgrees : Obligations.WideningMultiplierAgrees :=
  fun a b => ⟨mulWidening_eq a b, (mulWidening_eq a b).trans (mulLimbs_eq a b).symm⟩

/-! ### The laws of the multiplier (R63, R64) -/

theorem sll128_eq_mul128 (a : Value) (k : Fin 128) : sll128 a k = mul128 a (BitVec.ofNat 128 (2 ^ k.val)) := by
  apply BitVec.eq_of_toNat_eq
  rw [toNat_sll128, toNat_mul128, BitVec.toNat_ofNat, Nat.mul_mod_mod]

/-- Settles O26: the multiplier is multiplication of bit vectors, whose laws these are. -/
theorem multiplierLaws : Obligations.MultiplierLaws := by
  refine ⟨fun a b c => ?_, fun a k => (sll128_eq_mul128 a k).symm, by decide, by decide⟩
  simp only [mul128_eq, add128_eq]
  exact ⟨BitVec.mul_comm a b, BitVec.mul_assoc a b c, BitVec.mul_add, BitVec.mul_one a, BitVec.mul_zero⟩

theorem toInt_eq_toNat_sub_signBit (a : Value) : a.toInt = a.toNat - 2 ^ 128 * ((a.getLsbD 127).toNat : Int) := by
  cases h : a.getLsbD 127 with
  | false => simp [toInt_of_signBit_clear h]
  | true => simp [toInt_of_signBit_set h]

theorem ofInt_toInt_mul_toInt (a b : Value) : BitVec.ofInt 128 (a.toInt * b.toInt) = mul128 a b := by
  rw [BitVec.ofInt_mul, BitVec.ofInt_toInt, BitVec.ofInt_toInt, mul128_eq]

/-- Settles O27: each signed value differs from its unsigned one by a multiple of 2^128, so the products do too. -/
theorem multiplierIgnoresSignedness : Obligations.MultiplierIgnoresSignedness := by
  intro a b
  have hmod := (toInt_modEq_toNat a).mul (toInt_modEq_toNat b)
  refine ⟨toInt_eq_toNat_sub_signBit a, hmod.symm.dvd, ofInt_toInt_mul_toInt a b, ?_⟩
  rw [ofInt_toInt_mul_toInt]
  exact answers_mul a b

/-! ### The laws of the shifts (R70) -/

theorem srl128_sll128 {a : Value} {k : Fin 128} (h : a.toNat * 2 ^ k.val < 2 ^ 128) : srl128 (sll128 a k) k = a := by
  apply BitVec.eq_of_toNat_eq
  rw [toNat_srl128, toNat_sll128, Nat.mod_eq_of_lt h, Nat.mul_div_cancel _ (Nat.two_pow_pos _)]

theorem toInt_sll128 {a : Value} {k : Fin 128} (hlo : -(2 ^ 127) ≤ a.toInt * 2 ^ k.val)
    (hhi : a.toInt * 2 ^ k.val ≤ 2 ^ 127 - 1) : (sll128 a k).toInt = a.toInt * 2 ^ k.val := by
  have hpow : BitVec.ofNat 128 (2 ^ k.val) = BitVec.ofInt 128 (2 ^ k.val) := by
    rw [← BitVec.ofInt_natCast]
    push_cast
    rfl
  have hsll : sll128 a k = BitVec.ofInt 128 (a.toInt * 2 ^ k.val) := by
    rw [sll128_eq_mul128, mul128_eq, hpow, BitVec.ofInt_mul, BitVec.ofInt_toInt]
  rw [hsll]
  exact BitVec.toInt_ofInt_eq_self (by decide) hlo (Int.lt_of_le_sub_one hhi)

theorem sra128_sll128 {a : Value} {k : Fin 128} (hlo : -(2 ^ 127) ≤ a.toInt * 2 ^ k.val)
    (hhi : a.toInt * 2 ^ k.val ≤ 2 ^ 127 - 1) : sra128 (sll128 a k) k = a := by
  apply BitVec.eq_of_toInt_eq
  rw [toInt_sra128, toInt_sll128 hlo hhi, Int.mul_ediv_cancel _ (by positivity)]

/-- Settles O32: a shift that loses nothing is undone, and the units are the shifts of the 128-bit pattern, which
compose. -/
theorem shiftLaws : Obligations.ShiftLaws := by
  refine fun a j k => ⟨srl128_sll128, sra128_sll128, fun h => ?_, sll128_eq_mul128 a k⟩
  simp only [sll128_eq, srl128_eq, sra128_eq]
  exact ⟨(BitVec.shiftLeft_add a j.val k.val).symm, (BitVec.shiftRight_add a j.val k.val).symm,
    (BitVec.sshiftRight_add).symm⟩

end Sys2Proof.Machine
end

section
/-! PROOFS about the stepped division (spec/45_divide.md R76): one step for START, for each ITER and for DONE gives the
response of the division performed as one step. -/

namespace Sys2Proof.Machine

/-! ### Runs -/

section Runs

variable {M : Host.Core}

theorem run_succ_of_next {s t : M.State} (h : M.step s = .next t) (k : Nat) : M.run (k + 1) s = M.run k t := by
  rw [Host.Core.run, h]

theorem run_succ_of_fault {s : M.State} {f : M.Fault} (h : M.step s = .fault f) (k : Nat) :
    M.run (k + 1) s = .fault f := by
  rw [Host.Core.run, h]

theorem run_succ_of_refused {s : M.State} {r : M.Refusal} (h : M.step s = .refused r) (k : Nat) :
    M.run (k + 1) s = .refused r := by
  rw [Host.Core.run, h]

/-- A run goes on from where its first steps lead. -/
theorem run_add {k : Nat} {s t : M.State} (h : M.run k s = .next t) (m : Nat) : M.run (k + m) s = M.run m t := by
  induction k generalizing s with
  | zero =>
    obtain rfl := Host.Outcome.next.inj h
    rw [Nat.zero_add]
  | succ k ih =>
    rw [Nat.add_right_comm]
    cases hstep : M.step s with
    | next u =>
      rw [run_succ_of_next hstep] at h ⊢
      exact ih h
    | fault f => simp [run_succ_of_fault hstep] at h
    | refused r => simp [run_succ_of_refused hstep] at h

end Runs

theorem State.rst_pins_of_schedule {s : State} (h : ∀ p ∈ s.schedule, p.rst = false) : s.pins.rst = false := by
  cases hs : s.schedule with
  | nil =>
    rw [State.pins_of_nil hs]
    rfl
  | cons p ps =>
    rw [State.pins, hs, List.headD_cons]
    exact h p (by simp [hs])

/-! ### The stages of a stepped division -/

/-- How many ITERs are still to come (R76). -/
def Stage.itersToCome : Stage → Nat
  | .iterating w => w.i.val + 1
  | .divided _ _ _ => 0
  | .answered _ => 0

/-- The quotient and the remainder that the engine will have found at DONE (R73, R76). -/
def Stage.result : Stage → Value × Value
  | .iterating w => ((divLoop (w.i.val + 1) w).q, (divLoop (w.i.val + 1) w).rem)
  | .divided q r _ => (q, r)
  | .answered r => (r.y, r.z)

/-- There is no response yet. -/
def Stage.Unanswered (g : Stage) : Prop := ∀ r : Response, g ≠ .answered r

theorem Stage.unanswered_iterating (w : DivWork) : (Stage.iterating w).Unanswered := fun _ => by simp

theorem Stage.unanswered_divided (q r : Value) (l : Option DivRest) : (Stage.divided q r l).Unanswered :=
  fun _ => by simp

/-- START knows the result of the whole division, and how many iterations that takes. -/
theorem divStart_spec (n d : Value) :
    (divStart n d).Unanswered ∧ (divStart n d).result = divMod n d ∧ (divStart n d).itersToCome = iterations n d := by
  rcases Nat.lt_trichotomy n.toNat d.toNat with hlt | heq | hgt
  · have hgtu := (gtu_iff d n).mpr hlt
    rw [divStart_of_gtu hgtu, divMod_of_gtu hgtu, iterations_of_le hlt.le]
    exact ⟨Stage.unanswered_divided _ _ _, rfl, rfl⟩
  · obtain rfl : n = d := BitVec.eq_of_toNat_eq heq
    rw [divStart_self, divMod_self, iterations_of_le le_rfl]
    exact ⟨Stage.unanswered_divided _ _ _, rfl, rfl⟩
  · rw [divStart_of_toNat_lt hgt, divMod_of_toNat_lt hgt, iterations_of_lt hgt]
    exact ⟨Stage.unanswered_iterating _, rfl, rfl⟩

/-- The body of the loop leaves the index to the loop. -/
theorem divBody_setIndex (w : DivWork) (i : Fin 128) : divBody { w with i := i } = { divBody w with i := i } := by
  by_cases h : geu w.rem w.dd = true
  · rw [divBody_of_geu h]
    exact divBody_of_geu h
  · rw [divBody_of_not_geu h]
    exact divBody_of_not_geu h

theorem divLoop_setIndex (k : Nat) (w : DivWork) (i : Fin 128) :
    divLoop k { w with i := i } = { divLoop k w with i := i } := by
  induction k generalizing w with
  | zero => rfl
  | succ k ih => rw [divLoop, divBody_setIndex, ih, divLoop]

/-- ITER keeps the result to come, and there is one ITER less. -/
theorem divIter_spec (w : DivWork) :
    (divIter w).Unanswered ∧ (divIter w).result = (Stage.iterating w).result ∧
      (divIter w).itersToCome + 1 = (Stage.iterating w).itersToCome := by
  by_cases hi : w.i = 0
  · rw [divIter_of_eq_zero hi]
    refine ⟨Stage.unanswered_divided _ _ _, ?_, ?_⟩
    · rw [Stage.result, Stage.result, hi]
      rfl
    · rw [Stage.itersToCome, Stage.itersToCome, hi]
      rfl
  · have hpred := val_sub_one_add_one hi
    rw [divIter_of_ne_zero hi]
    refine ⟨Stage.unanswered_iterating _, ?_, congrArg (· + 1) hpred⟩
    rw [Stage.result, Stage.result, divLoop_setIndex, hpred, divLoop]

/-! ### A stepped division in flight -/

/-- `t` comes after `s` in the life of the command `cmd`, which is now at stage `g`: nothing else of the unit has
changed, and the host will not assert `rst`. -/
structure State.HasInFlight (s t : State) (cmd : CommandWord) (g : Stage) : Prop where
  inFlight : t.inFlight = some ⟨cmd, g⟩
  status : t.status = s.status
  taken : t.taken = s.taken
  granularity : t.granularity = s.granularity
  no_rst : ∀ p ∈ t.schedule, p.rst = false

section InFlight

variable {s t : State} {cmd : CommandWord} {g : Stage} (h : s.HasInFlight t cmd g)
include h

/-- With no response there, the unit is busy and neither of its ports is open (R94). -/
theorem State.HasInFlight.ports (hg : g.Unanswered) :
    t.respValid = false ∧ t.cmdReady = false ∧ t.busy = true := by
  refine ⟨State.respValid_of_response_none (State.response_of_not_answered h.inFlight hg), ?_, ?_⟩
  · rw [← Bool.not_eq_true, State.cmdReady_iff, h.inFlight]
    simp
  · rw [State.busy_eq, h.inFlight, Option.isSome_some]

/-- An instant in which the command goes on to stage `g'`. -/
theorem State.HasInFlight.step (hrun : s.status.halted = false) {g' : Stage}
    (hserve : t.serve ⟨cmd, g⟩ = { t with inFlight := some ⟨cmd, g'⟩ }) :
    ∃ t' : State, Machine.step t = .next t' ∧ s.HasInFlight t' cmd g' := by
  have hstep := step_of_inFlight (State.rst_pins_of_schedule h.no_rst) (h.status ▸ hrun) h.inFlight
  rw [hserve] at hstep
  exact ⟨_, hstep, rfl, h.status, h.taken, h.granularity, fun p hp => h.no_rst p (List.mem_of_mem_tail hp)⟩

/-- Up to DONE each step performs one ITER. -/
theorem State.HasInFlight.run_iters (hrun : s.status.halted = false) (hg : g.Unanswered) {k : Nat}
    (hk : k ≤ g.itersToCome) :
    ∃ (t' : State) (g' : Stage), Sys2Proof.core.run k t = .next t' ∧ s.HasInFlight t' cmd g' ∧ g'.Unanswered ∧
      g'.result = g.result ∧ g'.itersToCome + k = g.itersToCome := by
  induction k generalizing t g with
  | zero => exact ⟨t, g, rfl, h, hg, rfl, rfl⟩
  | succ k ih =>
    cases g with
    | iterating w =>
      obtain ⟨hg', hresult, hcount⟩ := divIter_spec w
      obtain ⟨u, hstep, hu⟩ := h.step hrun (g' := divIter w) rfl
      obtain ⟨t', g', hrun', ht', hunanswered, hsame, hleft⟩ := ih hu hg' (by omega)
      exact ⟨t', g', (run_succ_of_next hstep k).trans hrun', ht', hunanswered, hsame.trans hresult, by omega⟩
    | divided q r l => exact absurd hk (Nat.not_succ_le_zero k)
    | answered r => exact absurd rfl (hg r)

/-- The step after the last ITER is DONE, which responds. -/
theorem State.HasInFlight.run_to_response (hrun : s.status.halted = false) (hg : g.Unanswered) :
    ∃ t' : State, Sys2Proof.core.run (g.itersToCome + 1) t = .next t' ∧
      s.HasInFlight t' cmd (.answered ⟨g.result.1, g.result.2⟩) := by
  obtain ⟨u, g', hrun', hu, hunanswered, hresult, hcount⟩ := h.run_iters hrun hg le_rfl
  rw [← hresult]
  cases g' with
  | iterating w =>
    have hmore : (Stage.iterating w).itersToCome = w.i.val + 1 := rfl
    omega
  | divided q r l =>
    obtain ⟨t', hstep, ht'⟩ := hu.step hrun (g' := .answered ⟨q, r⟩) rfl
    exact ⟨t', (run_add hrun' 1).trans (run_succ_of_next hstep 0), ht'⟩
  | answered r => exact absurd rfl (hunanswered r)

end InFlight

/-- Acceptance performs START (R76). -/
theorem exists_step_to_divStart {s : State} {w : CommandWord} (hacc : s.accepts w) (hop : opOf w = 0x09#8)
    (hb : bOf w ≠ 0#128) (hg : s.granularity = .perIteration) (hrst : ∀ p ∈ s.schedule, p.rst = false) :
    ∃ t : State, step s = .next t ∧ s.HasInFlight t w (divStart (aOf w) (bOf w)) := by
  have ⟨_, _, hw⟩ := hacc
  have hstep := step_of_accepts hacc
  rw [State.accept, hw, decode_of_opOf_divmod hop] at hstep
  refine ⟨_, hstep.trans (congrArg endInstant (exec_divmod_perIteration (aOf w) hb hg)), ?_, rfl, rfl, rfl,
    fun p hp => hrst p (List.mem_of_mem_tail hp)⟩
  rw [State.tick_inFlight, State.enterDivision_inFlight, hw]

/-- Settles O36: START, ITER and DONE are the cases of `divStart`, `divIter` and `serve`; each keeps the result the
whole division has, and an ITER leaves one ITER less to come. -/
theorem steppedDivisionAnswersAlike : Obligations.SteppedDivisionAnswersAlike := by
  refine ⟨fun s n d hg hd => ⟨divStart n d, exec_divmod_perIteration n hd hg, divStart_of_gtu, ?_, fun hlt => ?_⟩,
    fun s cmd w hrst hrun hf => ?_, fun s cmd q r l hrst hrun hf => step_of_inFlight hrst hrun hf,
    fun s w hacc hop hb hg hrst => ?_, fun s f _ hrst => ⟨_, step_of_rst hrst, rfl, rfl⟩⟩
  · rintro rfl
    exact divStart_self d
  · exact divStart_of_toNat_lt ((gtu_iff n d).mp hlt)
  · refine ⟨(divBody w).q, (divBody w).rem, (divBody w).dd, divIter w, step_of_inFlight hrst hrun hf, divBody_dd w,
      fun hge => ?_, fun hlt => ?_, fun hi => ?_, divIter_of_ne_zero⟩
    · rw [divBody_of_geu hge]
      exact ⟨rfl, rfl⟩
    · rw [divBody_of_not_geu (by simp [hlt])]
      exact ⟨rfl, rfl⟩
    · rw [divIter_of_eq_zero hi, divBody_dd]
  · have ⟨hready, _, _⟩ := hacc
    obtain ⟨-, hrun, -⟩ := s.cmdReady_iff.mp hready
    obtain ⟨hstart, hresult, hcount⟩ := divStart_spec (aOf w) (bOf w)
    obtain ⟨u, hstep, hu⟩ := exists_step_to_divStart hacc hop hb hg hrst
    rw [← hcount, ← hresult]
    constructor
    · intro k hk
      obtain ⟨t, g, hrun', ht, hg', -, -⟩ := hu.run_iters hrun hstart hk
      obtain ⟨hvalid, hready', hbusy⟩ := ht.ports hg'
      exact ⟨t, (run_succ_of_next hstep k).trans hrun', hvalid, hready', hbusy, ht.status, ht.taken⟩
    · obtain ⟨t, hrun', ht⟩ := hu.run_to_response hrun hstart
      exact ⟨t, (run_succ_of_next hstep _).trans hrun', ht.inFlight, ht.status, ht.taken, ht.granularity⟩

end Sys2Proof.Machine
end

section
/-! PROOFS about runs (spec/70_reset_and_hazards.md R96): a run of the machine under an obedient host is the run of the
abstract unit, and a host script (spec/30_encoding.md R49) is a run over the words its lines assemble to. -/

namespace Sys2Proof.Machine

/-! ### The abstract run, command by command -/

section AbstractRun

variable {w : CommandWord} (ws : List CommandWord)

theorem abstractRun_cons_of_respond {r : Response} (h : transact w = .respond r) :
    abstractRun (w :: ws) = (abstractRun ws).after r := by
  rw [abstractRun, h]

theorem abstractRun_cons_of_fatal {c : Cause} (h : transact w = .fatal c) :
    abstractRun (w :: ws) = .endsInFault [] c (opOf w) := by
  rw [abstractRun, h]

theorem abstractRun_cons_of_undefined {k : Int} (h : transact w = .undefined k) :
    abstractRun (w :: ws) = .noMeaning [] k := by
  rw [abstractRun, h]

end AbstractRun

/-! ### The obedient host (R94) -/

theorem length_obedientSchedule (ws : List CommandWord) : (obedientSchedule ws).length = 2 * ws.length := by
  induction ws with
  | nil => rfl
  | cons w ws ih =>
    rw [obedientSchedule, List.length_cons, List.length_cons, ih, List.length_cons]
    omega

theorem rst_of_mem_obedientSchedule {ws : List CommandWord} {p : HostPins} (h : p ∈ obedientSchedule ws) :
    p.rst = false := by
  induction ws with
  | nil => simp [obedientSchedule] at h
  | cons w ws ih =>
    rw [obedientSchedule, List.mem_cons, List.mem_cons] at h
    obtain rfl | rfl | htail := h
    · rfl
    · rfl
    · exact ih htail

/-- A halted unit lets the host's instants pass, and the next step is the fault (log 4). -/
theorem run_of_halted {s : State} (hh : s.status.halted = true) (hrst : ∀ p ∈ s.schedule, p.rst = false) {n : Nat}
    (hn : s.schedule.length = n) :
    ∃ t : State, Sys2Proof.core.run n s = .next t ∧ t.taken = s.taken ∧ t.status = s.status ∧
      Sys2Proof.core.run (n + 1) s = .fault (.halted s.status.cause s.status.fop) := by
  have hstep : step s = s.remainHalted := step_of_halted (State.rst_pins_of_schedule hrst) hh
  induction n generalizing s with
  | zero =>
    rw [State.remainHalted_of_nil (List.length_eq_zero_iff.mp hn)] at hstep
    exact ⟨s, rfl, rfl, rfl, run_succ_of_fault hstep 0⟩
  | succ n ih =>
    have hne : s.schedule ≠ [] := List.ne_nil_of_length_eq_add_one hn
    rw [State.remainHalted_of_schedule hne] at hstep
    have hrst' : ∀ p ∈ s.tick.schedule, p.rst = false := fun p hp => hrst p (List.mem_of_mem_tail hp)
    have hn' : s.tick.schedule.length = n := by rw [State.tick_schedule, List.length_tail, hn, Nat.add_sub_cancel]
    obtain ⟨t, hrun, htaken, hstatus, hfault⟩ :=
      ih (s := s.tick) hh hrst' hn' (step_of_halted (State.rst_pins_of_schedule hrst') hh)
    exact ⟨t, (run_succ_of_next hstep n).trans hrun, htaken, hstatus, (run_succ_of_next hstep (n + 1)).trans hfault⟩

/-! ### A run of the machine is the run of the abstract unit -/

/-- The machine, from `s`, performs a run of `n` commands that ends so (R96): two steps a command, and after a fatal one
more step for the fault (logs 4, 9). -/
def RunEnd.ReachedFrom (s : State) (n : Nat) : RunEnd → Prop
  | .endsWell rs => ∃ t : State, Sys2Proof.core.run (2 * n) s = .next t ∧ t.endedWell ∧
      t.taken = s.taken ++ rs ∧ rs.length = n ∧ t.status = s.status
  | .endsInFault rs c op => ∃ t : State, Sys2Proof.core.run (2 * n) s = .next t ∧ t.taken = s.taken ++ rs ∧
      rs.length < n ∧ t.status = ⟨true, c.code, op⟩ ∧
      Sys2Proof.core.run (2 * n + 1) s = .fault (.halted c.code op)
  | .noMeaning rs k => rs.length < n ∧ Sys2Proof.core.run (2 * n) s = .refused (.shiftAmountUndefined k)

/-- A command answered and its response taken, in front of a run. -/
theorem RunEnd.ReachedFrom.after {s u : State} {n : Nat} {r : Response} {e : RunEnd} (hstatus : u.status = s.status)
    (htaken : u.taken = s.taken ++ [r]) (hrun : ∀ k : Nat, Sys2Proof.core.run (k + 2) s = Sys2Proof.core.run k u)
    (h : e.ReachedFrom u n) : (e.after r).ReachedFrom s (n + 1) := by
  have htaken' (rs : List Response) : u.taken ++ rs = s.taken ++ (r :: rs) := by
    rw [htaken, List.append_assoc, List.singleton_append]
  cases e with
  | endsWell rs =>
    obtain ⟨t, hrun', hwell, hrs, hlen, hst⟩ := h
    exact ⟨t, (hrun _).trans hrun', hwell, hrs.trans (htaken' rs), congrArg (· + 1) hlen, hst.trans hstatus⟩
  | endsInFault rs c op =>
    obtain ⟨t, hrun', hrs, hlen, hst, hfault⟩ := h
    exact ⟨t, (hrun _).trans hrun', hrs.trans (htaken' rs), Nat.succ_lt_succ hlen, hst, (hrun _).trans hfault⟩
  | noMeaning rs k =>
    obtain ⟨hlen, hrefused⟩ := h
    exact ⟨Nat.succ_lt_succ hlen, (hrun _).trans hrefused⟩

section Command

variable {s : State} {w : CommandWord} {ws : List CommandWord} (hacc : s.accepts w)
  (hg : s.granularity = .wholeCommand) (hs : s.schedule = obedientSchedule (w :: ws))
include hacc hg hs

/-- A command that is answered: the host takes the response at the next instant, and the unit is idle again. -/
theorem exists_idle_after_respond {r : Response} (hr : transact w = .respond r) :
    ∃ u : State, (∀ k : Nat, Sys2Proof.core.run (k + 2) s = Sys2Proof.core.run k u) ∧ u.status = s.status ∧
      u.inFlight = none ∧ u.taken = s.taken ++ [r] ∧ u.granularity = .wholeCommand ∧
      u.schedule = obedientSchedule ws := by
  have ⟨hready, _, _⟩ := hacc
  obtain ⟨-, hrun, -⟩ := s.cmdReady_iff.mp hready
  have haccept := step_of_transact_respond hacc hg hr
  obtain ⟨t, ht⟩ : ∃ t : State, t = State.tick { s with inFlight := some ⟨w, .answered r⟩ } := ⟨_, rfl⟩
  rw [← ht] at haccept
  have hschedule : t.schedule = HostPins.take :: obedientSchedule ws := by
    rw [ht, State.tick_schedule, hs, obedientSchedule, List.tail_cons]
  have hpins : t.pins = HostPins.take := by rw [State.pins, hschedule, List.headD_cons]
  have hflight : t.inFlight = some ⟨w, .answered r⟩ := by rw [ht]; rfl
  have hrunning : t.status.halted = false := by rw [ht]; exact hrun
  have htake := step_of_answered_taken (by rw [hpins]; rfl) hflight hrunning (by rw [hpins]; rfl)
  refine ⟨(t.takeResponse r).tick, fun k => ?_, ?_, rfl, ?_, ?_, ?_⟩
  · exact (run_succ_of_next haccept (k + 1)).trans (run_succ_of_next htake k)
  · rw [State.tick_status, State.takeResponse_status, ht]
    rfl
  · rw [State.tick_taken, State.takeResponse_taken, ht]
    rfl
  · rw [State.tick_granularity, State.takeResponse_granularity, ht]
    exact hg
  · rw [State.tick_schedule, State.takeResponse_schedule, hschedule, List.tail_cons]

/-- A command that is fatal: nothing the host presents afterwards is accepted. -/
theorem reachedFrom_of_fatal {c : Cause} (hc : transact w = .fatal c) :
    (RunEnd.endsInFault [] c (opOf w)).ReachedFrom s (ws.length + 1) := by
  have hfatal := step_of_transact_fatal hacc hg hc
  obtain ⟨u, hu⟩ : ∃ u : State, u = State.tick { s with status := ⟨true, c.code, opOf w⟩, inFlight := none } :=
    ⟨_, rfl⟩
  rw [← hu] at hfatal
  have hschedule : u.schedule = s.schedule.tail := by rw [hu]; rfl
  have hrst : ∀ p ∈ u.schedule, p.rst = false := by
    rw [hschedule, hs]
    exact fun p hp => rst_of_mem_obedientSchedule (List.mem_of_mem_tail hp)
  have hlength : u.schedule.length = 2 * ws.length + 1 := by
    rw [hschedule, List.length_tail, hs, length_obedientSchedule, List.length_cons]
    omega
  have hstatus : u.status = ⟨true, c.code, opOf w⟩ := by rw [hu]; rfl
  have htaken : u.taken = s.taken := by rw [hu]; rfl
  obtain ⟨t, hrun, htaken', hstatus', hfault⟩ := run_of_halted (by rw [hstatus]) hrst hlength
  rw [hstatus] at hstatus' hfault
  refine ⟨t, (run_succ_of_next hfatal _).trans hrun, ?_, Nat.succ_pos _, hstatus',
    (run_succ_of_next hfatal _).trans hfault⟩
  rw [htaken', htaken, List.append_nil]

end Command

theorem reachedFrom_of_undefined {s : State} {w : CommandWord} (hacc : s.accepts w)
    (hg : s.granularity = .wholeCommand) {k : Int} (hk : transact w = .undefined k) (n : Nat) :
    (RunEnd.noMeaning [] k).ReachedFrom s (n + 1) :=
  ⟨Nat.succ_pos n, run_succ_of_refused (step_of_transact_undefined hacc hg hk) _⟩

theorem accepts_of_obedientSchedule {s : State} {w : CommandWord} {ws : List CommandWord} (hwell : s.endedWell)
    (hs : s.schedule = obedientSchedule (w :: ws)) : s.accepts w := by
  obtain ⟨hidle, hrun⟩ := hwell
  have hpins : s.pins = HostPins.present w := by rw [State.pins, hs, obedientSchedule, List.headD_cons]
  exact ⟨s.cmdReady_iff.mpr ⟨by rw [hpins]; rfl, hrun, hidle⟩, by rw [hpins]; rfl, by rw [hpins]; rfl⟩

theorem abstractRun_reachedFrom (ws : List CommandWord) {s : State} (hwell : s.endedWell)
    (hg : s.granularity = .wholeCommand) (hs : s.schedule = obedientSchedule ws) :
    (abstractRun ws).ReachedFrom s ws.length := by
  induction ws generalizing s with
  | nil => exact ⟨s, rfl, hwell, (List.append_nil _).symm, rfl, rfl⟩
  | cons w ws ih =>
    have hacc := accepts_of_obedientSchedule hwell hs
    cases htr : transact w with
    | respond r =>
      obtain ⟨u, hrun, hstatus, hidle, htaken, hgranularity, hschedule⟩ := exists_idle_after_respond hacc hg hs htr
      obtain ⟨-, hrunning⟩ := hwell
      rw [abstractRun_cons_of_respond ws htr]
      exact (ih ⟨hidle, hstatus ▸ hrunning⟩ hgranularity hschedule).after hstatus htaken hrun
    | fatal c =>
      rw [abstractRun_cons_of_fatal ws htr]
      exact reachedFrom_of_fatal hacc hg hs htr
    | undefined k =>
      rw [abstractRun_cons_of_undefined ws htr]
      exact reachedFrom_of_undefined hacc hg htr ws.length

/-- Settles O57: by induction on the commands; one that is answered leaves the unit as it was but for the response
taken, and one that is not ends the run. -/
theorem runsAreRunsOfTheAbstractUnit : Obligations.RunsAreRunsOfTheAbstractUnit := by
  intro s ws hwell hg hs
  have h := abstractRun_reachedFrom ws hwell hg hs
  cases he : abstractRun ws with
  | endsWell rs => rwa [he] at h
  | endsInFault rs c op => rwa [he] at h
  | noMeaning rs k => rwa [he] at h

/-! ### Host scripts (R49) -/

theorem AsmMnemonic.wellFormed_of_expand {m : AsmMnemonic} {vs : List Value} {i : Instr} (h : m.expand vs = some i) :
    i.wellFormed = true := by
  unfold AsmMnemonic.expand at h
  split at h
  · split at h
    · split at h
      · exact Option.some.inj h ▸ Mnemonic.wellFormed_command _ _ _
      · simp at h
    · exact Option.some.inj h ▸ Mnemonic.wellFormed_command _ _ _
    · simp at h
    · simp at h
  · split at h
    · simp at h
    · simp at h
    · exact Option.some.inj h ▸ Mnemonic.wellFormed_command _ _ _
    · exact Option.some.inj h ▸ Mnemonic.wellFormed_command _ _ _
  · exact Option.some.inj h ▸ rfl
  · exact Option.some.inj h ▸ rfl
  · exact Option.some.inj h ▸ rfl
  · simp at h

theorem Line.wellFormed_of_assemble {l : Line} {rs : List Response} {i : Instr} (h : l.assemble rs = some i) :
    i.wellFormed = true := by
  obtain ⟨vs, -, hexpand⟩ := Option.bind_eq_some_iff.mp h
  exact AsmMnemonic.wellFormed_of_expand hexpand

theorem transact_encode {i : Instr} (h : i.wellFormed = true) : transact (encode i) = lawOf i :=
  transact_of_command (decode_encode h)

theorem opOf_encode (i : Instr) : opOf (encode i) = i.mnemonic.opcode :=
  have ⟨hop, _, _⟩ := Laws.FieldsOfEncoding.of_encode i
  hop

section RunScript

variable {l : Line} {rs : List Response} (ls : List Line)

theorem runScript_cons_of_badLine (h : l.assemble rs = none) : runScript (l :: ls) rs = .badLine rs := by
  rw [runScript, h]

variable {i : Instr} (h : l.assemble rs = some i)
include h

theorem runScript_cons_of_respond {r : Response} (hr : lawOf i = .respond r) :
    runScript (l :: ls) rs = runScript ls (rs ++ [r]) := by
  simp [runScript, h, hr]

theorem runScript_cons_of_fatal {c : Cause} (hc : lawOf i = .fatal c) :
    runScript (l :: ls) rs = .ran (.endsInFault rs c i.mnemonic.opcode) := by
  simp [runScript, h, hc]

theorem runScript_cons_of_undefined {k : Int} (hk : lawOf i = .undefined k) :
    runScript (l :: ls) rs = .ran (.noMeaning rs k) := by
  simp [runScript, h, hk]

end RunScript

/-- After `earlier` responses, each of the words is the encoding of what its line assembles to, given the responses of
the words before it (R49). -/
def FormedFrom (earlier : List Response) (ls : List Line) (ws : List CommandWord) : Prop :=
  ∀ (k : Nat) (w : CommandWord), ws[k]? = some w → ∃ (l : Line) (rs : List Response) (i : Instr),
    ls[k]? = some l ∧ abstractRun (ws.take k) = .endsWell rs ∧ rs.length = k ∧
      l.assemble (earlier ++ rs) = some i ∧ w = encode i

theorem formedFrom_nil (earlier : List Response) (ls : List Line) : FormedFrom earlier ls [] :=
  fun k w hw => by simp at hw

section FormedFrom

variable {earlier : List Response} {l : Line} {i : Instr} (h : l.assemble earlier = some i)
include h

theorem formedFrom_singleton (ls : List Line) : FormedFrom earlier (l :: ls) [encode i] := by
  intro k w hw
  cases k with
  | zero => exact ⟨l, [], i, rfl, rfl, rfl, (List.append_nil earlier).symm ▸ h, (Option.some.inj hw).symm⟩
  | succ k => simp at hw

theorem FormedFrom.cons {r : Response} (hr : transact (encode i) = .respond r) {ls : List Line}
    {ws : List CommandWord} (hws : FormedFrom (earlier ++ [r]) ls ws) :
    FormedFrom earlier (l :: ls) (encode i :: ws) := by
  intro k w hw
  cases k with
  | zero => exact ⟨l, [], i, rfl, rfl, rfl, (List.append_nil earlier).symm ▸ h, (Option.some.inj hw).symm⟩
  | succ k =>
    obtain ⟨l', rs, i', hl', hrun, hlen, hasm, henc⟩ := hws k w hw
    refine ⟨l', r :: rs, i', hl', ?_, congrArg (· + 1) hlen, ?_, henc⟩
    · rw [List.take_succ_cons, abstractRun_cons_of_respond _ hr, hrun]
      rfl
    · rwa [List.append_assoc, List.singleton_append] at hasm

end FormedFrom

/-- After `earlier` responses, the script of these lines ends as the run over these words does, with the responses of
that run after the earlier ones, or at a line that does not assemble from them (log 17). -/
def ScriptEnd.FollowsFrom (earlier : List Response) (ls : List Line) (ws : List CommandWord) : ScriptEnd → Prop
  | .ran (.endsWell rs) => ∃ new : List Response, rs = earlier ++ new ∧ abstractRun ws = .endsWell new ∧
      ws.length = ls.length ∧ new.length = ls.length
  | .ran (.endsInFault rs c op) => ∃ new : List Response, rs = earlier ++ new ∧
      abstractRun ws = .endsInFault new c op ∧ ws.length = new.length + 1
  | .ran (.noMeaning rs k) => ∃ new : List Response, rs = earlier ++ new ∧
      abstractRun ws = .noMeaning new k ∧ ws.length = new.length + 1
  | .badLine rs => ∃ new : List Response, rs = earlier ++ new ∧ abstractRun ws = .endsWell new ∧
      ws.length = new.length ∧ ∃ l : Line, ls[new.length]? = some l ∧ l.assemble rs = none

/-- A word answered, in front of the words of a script. -/
theorem ScriptEnd.FollowsFrom.cons {earlier : List Response} {r : Response} {ls : List Line} {ws : List CommandWord}
    {e : ScriptEnd} (h : e.FollowsFrom (earlier ++ [r]) ls ws) (l : Line) {w : CommandWord}
    (hr : transact w = .respond r) : e.FollowsFrom earlier (l :: ls) (w :: ws) := by
  have hafter {e' : RunEnd} (hrun : abstractRun ws = e') : abstractRun (w :: ws) = e'.after r := by
    rw [abstractRun_cons_of_respond ws hr, hrun]
  have hnew (new : List Response) : earlier ++ [r] ++ new = earlier ++ (r :: new) := by
    rw [List.append_assoc, List.singleton_append]
  match e, h with
  | .ran (.endsWell rs), ⟨new, hrs, hrun, hws, hlen⟩ =>
    exact ⟨r :: new, hrs.trans (hnew new), hafter hrun, congrArg (· + 1) hws, congrArg (· + 1) hlen⟩
  | .ran (.endsInFault rs c op), ⟨new, hrs, hrun, hws⟩ =>
    exact ⟨r :: new, hrs.trans (hnew new), hafter hrun, congrArg (· + 1) hws⟩
  | .ran (.noMeaning rs k), ⟨new, hrs, hrun, hws⟩ =>
    exact ⟨r :: new, hrs.trans (hnew new), hafter hrun, congrArg (· + 1) hws⟩
  | .badLine rs, ⟨new, hrs, hrun, hws, hbad⟩ =>
    exact ⟨r :: new, hrs.trans (hnew new), hafter hrun, congrArg (· + 1) hws, hbad⟩

/-- Every script presents the words of some run. -/
theorem exists_words_of_script (ls : List Line) (earlier : List Response) : ∃ ws : List CommandWord,
    ws.length ≤ ls.length ∧ FormedFrom earlier ls ws ∧ (runScript ls earlier).FollowsFrom earlier ls ws := by
  induction ls generalizing earlier with
  | nil => exact ⟨[], le_rfl, formedFrom_nil _ _, [], (List.append_nil _).symm, rfl, rfl, rfl⟩
  | cons l ls ih =>
    cases hasm : l.assemble earlier with
    | none =>
      rw [runScript_cons_of_badLine ls hasm]
      exact ⟨[], Nat.zero_le _, formedFrom_nil _ _, [], (List.append_nil _).symm, rfl, rfl, l, rfl, hasm⟩
    | some i =>
      have htr := transact_encode (Line.wellFormed_of_assemble hasm)
      cases hlaw : lawOf i with
      | respond r =>
        rw [hlaw] at htr
        obtain ⟨ws, hlen, hformed, hfollows⟩ := ih (earlier ++ [r])
        rw [runScript_cons_of_respond ls hasm hlaw]
        exact ⟨encode i :: ws, Nat.succ_le_succ hlen, hformed.cons hasm htr, hfollows.cons l htr⟩
      | fatal c =>
        rw [hlaw] at htr
        rw [runScript_cons_of_fatal ls hasm hlaw, ← opOf_encode]
        exact ⟨[encode i], Nat.succ_pos _, formedFrom_singleton hasm ls, [], (List.append_nil _).symm,
          abstractRun_cons_of_fatal [] htr, rfl⟩
      | undefined k =>
        rw [hlaw] at htr
        rw [runScript_cons_of_undefined ls hasm hlaw]
        exact ⟨[encode i], Nat.succ_pos _, formedFrom_singleton hasm ls, [], (List.append_nil _).symm,
          abstractRun_cons_of_undefined [] htr, rfl⟩

/-- Settles O58: by induction on the lines, from any responses so far; here there are none. -/
theorem scriptsAreRunsOverTheirWords : Obligations.ScriptsAreRunsOverTheirWords := by
  intro ls
  obtain ⟨ws, hlen, hformed, hfollows⟩ := exists_words_of_script ls []
  refine ⟨ws, hlen, hformed, ?_⟩
  generalize runScript ls [] = e at hfollows ⊢
  match e, hfollows with
  | .ran (.endsWell rs), ⟨_, rfl, hrun, hws, hrs⟩ => exact ⟨hrun, hws, hrs⟩
  | .ran (.endsInFault rs c op), ⟨_, rfl, hrun, hws⟩ => exact ⟨hrun, hws⟩
  | .ran (.noMeaning rs k), ⟨_, rfl, hrun, hws⟩ => exact ⟨hrun, hws⟩
  | .badLine rs, ⟨_, rfl, hrun, hws, hbad⟩ => exact ⟨hrun, hws, hbad⟩

end Sys2Proof.Machine
end
